-- ==== Sys2Proof/Word.lean ====
section
/-! DEFINITION. The two word types of the hardware (spec/00_scope.md R5, R7): bytes and 16-bit addresses. -/

namespace Sys2Proof

/-- `u8` of R7: register contents, memory bytes, opcode and operand bytes. -/
abbrev Byte := BitVec 8

/-- `u16` of R7: the program counter, addresses, and 16-bit words in memory. -/
abbrev Addr := BitVec 16

end Sys2Proof
end

