-- ==== Sys2Proof/Machine/Bits.lean ====
section
/-! DEFINITION. Bit-field and byte-order helpers of spec/00_scope.md R7 to R9, used by the decoder and the machine. -/

namespace Sys2Proof.Machine

/-- `zext_16(b)` of R9: the byte with bits 15:8 zero. -/
def zext16 (b : Byte) : Addr := b.setWidth 16

/-- `{hi, lo}` of R7: `hi * 256 + lo`. -/
def joinBytes (hi lo : Byte) : Addr := hi ++ lo

/-- `v[7:0]` of R55. -/
def lowByte (v : Addr) : Byte := v.extractLsb' 0 8

/-- `v[15:8]` of R55. -/
def highByte (v : Addr) : Byte := v.extractLsb' 8 8

end Sys2Proof.Machine
end

