-- ==== Sys2Proof/Syntax.lean ====
section
/-! DEFINITION. The instruction set as data: mnemonics and mode tags (spec/00_scope.md R2,
spec/40_addressing_modes.md R100), operands (spec/30_encoding.md R83), and one constructor of `Instr` for each of the
eleven rows of spec/opcode_table.json (R84). -/

namespace Sys2Proof

/-- The four mnemonics of R2. -/
inductive Mnemonic where
  | brk | lda | tax | inx
  deriving DecidableEq, Repr

/-- The ten addressing-mode tags of R100 (R101 to R110, in that order). -/
inductive Mode where
  | immediate | zeroPage | zeroPageX | zeroPageY | absolute | absoluteX | absoluteY | indirectX | indirectY
  | noneAddressing
  deriving DecidableEq, Repr

/-- A mode tag together with what the instruction's operand bytes supply (R83): a byte `b`, or the 16-bit word
`{hi, lo}` of the Absolute family. `zeroPageY` is defined although no opcode selects it (R85). -/
inductive Operand where
  | immediate (b : Byte) | zeroPage (b : Byte) | zeroPageX (b : Byte) | zeroPageY (b : Byte)
  | absolute (w : Addr) | absoluteX (w : Addr) | absoluteY (w : Addr)
  | indirectX (b : Byte) | indirectY (b : Byte)
  | noneAddressing
  deriving DecidableEq, Repr

/-- The mode tag of an operand. -/
def Operand.mode : Operand → Mode
  | .immediate _ => .immediate
  | .zeroPage _ => .zeroPage
  | .zeroPageX _ => .zeroPageX
  | .zeroPageY _ => .zeroPageY
  | .absolute _ => .absolute
  | .absoluteX _ => .absoluteX
  | .absoluteY _ => .absoluteY
  | .indirectX _ => .indirectX
  | .indirectY _ => .indirectY
  | .noneAddressing => .noneAddressing

/-- The instructions: one constructor per row of the opcode table (R84), in the table's order. -/
inductive Instr where
  | brk                       -- 0x00
  | ldaIndirectX (b : Byte)   -- 0xA1
  | ldaZeroPage (b : Byte)    -- 0xA5
  | ldaImmediate (b : Byte)   -- 0xA9
  | tax                       -- 0xAA
  | ldaAbsolute (w : Addr)    -- 0xAD
  | ldaIndirectY (b : Byte)   -- 0xB1
  | ldaZeroPageX (b : Byte)   -- 0xB5
  | ldaAbsoluteY (w : Addr)   -- 0xB9
  | ldaAbsoluteX (w : Addr)   -- 0xBD
  | inx                       -- 0xE8
  deriving DecidableEq, Repr

/-- The instruction's mnemonic (column 3 of R84). -/
def Instr.mnemonic : Instr → Mnemonic
  | .brk => .brk
  | .tax => .tax
  | .inx => .inx
  | .ldaIndirectX _ => .lda
  | .ldaZeroPage _ => .lda
  | .ldaImmediate _ => .lda
  | .ldaAbsolute _ => .lda
  | .ldaIndirectY _ => .lda
  | .ldaZeroPageX _ => .lda
  | .ldaAbsoluteY _ => .lda
  | .ldaAbsoluteX _ => .lda

/-- The instruction's operand, tagged with its mode (column 4 of R84). -/
def Instr.operand : Instr → Operand
  | .brk => .noneAddressing
  | .tax => .noneAddressing
  | .inx => .noneAddressing
  | .ldaIndirectX b => .indirectX b
  | .ldaZeroPage b => .zeroPage b
  | .ldaImmediate b => .immediate b
  | .ldaAbsolute w => .absolute w
  | .ldaIndirectY b => .indirectY b
  | .ldaZeroPageX b => .zeroPageX b
  | .ldaAbsoluteY w => .absoluteY w
  | .ldaAbsoluteX w => .absoluteX w

/-- The tagged operation descriptor of R86, with the instruction's length in bytes (column 6 of R84). -/
structure Descriptor where
  mnemonic : Mnemonic
  mode : Mode
  length : Nat
  deriving DecidableEq, Repr

end Sys2Proof
end

