-- ==== Sys2Proof/Machine/Modes.lean ====
section
/-! DEFINITION. Operand bytes consumed per addressing mode (spec/40_addressing_modes.md R112). -/

namespace Sys2Proof.Machine

/-- `n(m)` of R145, the table of R112. -/
def operandBytes : Mode → Nat
  | .noneAddressing => 0
  | .immediate => 1
  | .zeroPage => 1
  | .zeroPageX => 1
  | .zeroPageY => 1
  | .absolute => 2
  | .absoluteX => 2
  | .absoluteY => 2
  | .indirectX => 1
  | .indirectY => 1

end Sys2Proof.Machine
end

