-- ==== Sys2Proof/WellFormed.lean ====
section
/-! DEFINITION. What the decoder's table may hold (spec/30_encoding.md R82, R84, R85; spec/60_exceptions.md R172).
Operand bytes are unrestricted (R88), so the checks are on the descriptor: a mode assigned to the wrong opcode is the
"dispatcher/table bug" of R172. -/

namespace Sys2Proof

/-- LDA takes a mode that yields an address (R172); BRK, TAX and INX take none (R84). -/
def Descriptor.modeFits (d : Descriptor) : Bool :=
  match d.mnemonic with
  | .lda => d.mode != .noneAddressing
  | .brk => d.mode == .noneAddressing
  | .tax => d.mode == .noneAddressing
  | .inx => d.mode == .noneAddressing

/-- No opcode selects ZeroPage,Y (R85). -/
def Descriptor.modeSelected (d : Descriptor) : Bool := d.mode != .zeroPageY

/-- The length is one opcode byte and the mode's operand bytes (R82). -/
def Descriptor.lengthFits (d : Descriptor) : Bool := d.length == 1 + Machine.operandBytes d.mode

/-- A descriptor the opcode table may hold. -/
def Descriptor.wf (d : Descriptor) : Bool := d.modeFits && d.modeSelected && d.lengthFits

/-- The instruction's descriptor (columns 3, 4 and 6 of R84). -/
def Instr.descriptor (i : Instr) : Descriptor :=
  { mnemonic := i.mnemonic, mode := i.operand.mode, length := 1 + Machine.operandBytes i.operand.mode }

/-- Well-formed instructions. Every term of `Instr` is one (`Sys2Proof.Laws.WellFormedness`), since no operand value
is illegal (R88). -/
def Instr.wf (i : Instr) : Bool := i.descriptor.wf

end Sys2Proof
end

