-- ==== Sys2Proof/Decode.lean ====
section
/-! DEFINITION. The opcode table, the decoder and the encoder (spec/30_encoding.md R80 to R90, spec/opcode_table.json). -/

namespace Sys2Proof

/-- Why bytes are no instruction. -/
inductive DecodeError where
  /-- There is no opcode byte. -/
  | noOpcode
  /-- The opcode byte is none of the eleven (R87). -/
  | unimplementedOpcode (opcode : Byte)
  /-- The byte list ends before the instruction's operand bytes do. Memory never ends (R51), so no fetch meets it. -/
  | truncated (opcode : Byte)
  deriving DecidableEq, Repr

/-- The opcode table of R84, row by row. -/
def opcodeTable : List (Byte × Descriptor) :=
  [ (0x00, ⟨.brk, .noneAddressing, 1⟩)
  , (0xA1, ⟨.lda, .indirectX, 2⟩)
  , (0xA5, ⟨.lda, .zeroPage, 2⟩)
  , (0xA9, ⟨.lda, .immediate, 2⟩)
  , (0xAA, ⟨.tax, .noneAddressing, 1⟩)
  , (0xAD, ⟨.lda, .absolute, 3⟩)
  , (0xB1, ⟨.lda, .indirectY, 2⟩)
  , (0xB5, ⟨.lda, .zeroPageX, 2⟩)
  , (0xB9, ⟨.lda, .absoluteY, 3⟩)
  , (0xBD, ⟨.lda, .absoluteX, 3⟩)
  , (0xE8, ⟨.inx, .noneAddressing, 1⟩) ]

/-- `decode(opcode)` of R127: the mnemonic and the mode, or no row. It depends on the opcode byte alone. -/
def descriptorOf (opcode : Byte) : Option Descriptor := opcodeTable.lookup opcode

/-- The operand byte of format OP8 (R81). -/
def decodeOp8 (opcode : Byte) (make : Byte → Instr) : List Byte → Except DecodeError (Instr × List Byte)
  | b :: rest => .ok (make b, rest)
  | [] => .error (.truncated opcode)

/-- The operand word of format OP16 (R81): low byte at the lower address. -/
def decodeOp16 (opcode : Byte) (make : Addr → Instr) : List Byte → Except DecodeError (Instr × List Byte)
  | lo :: hi :: rest => .ok (make (Machine.joinBytes hi lo), rest)
  | [_] => .error (.truncated opcode)
  | [] => .error (.truncated opcode)

/-- The instruction at the head of a byte list, and the bytes after it (R80, R84); every byte outside the eleven is
rejected by name (R87). -/
def decode : List Byte → Except DecodeError (Instr × List Byte)
  | [] => .error .noOpcode
  | op :: rest =>
    if op = 0x00#8 then .ok (.brk, rest)
    else if op = 0xA1#8 then decodeOp8 op .ldaIndirectX rest
    else if op = 0xA5#8 then decodeOp8 op .ldaZeroPage rest
    else if op = 0xA9#8 then decodeOp8 op .ldaImmediate rest
    else if op = 0xAA#8 then .ok (.tax, rest)
    else if op = 0xAD#8 then decodeOp16 op .ldaAbsolute rest
    else if op = 0xB1#8 then decodeOp8 op .ldaIndirectY rest
    else if op = 0xB5#8 then decodeOp8 op .ldaZeroPageX rest
    else if op = 0xB9#8 then decodeOp16 op .ldaAbsoluteY rest
    else if op = 0xBD#8 then decodeOp16 op .ldaAbsoluteX rest
    else if op = 0xE8#8 then .ok (.inx, rest)
    else .error (.unimplementedOpcode op)

/-- The bytes of an instruction in ascending address order (R81, R84). -/
def encode : Instr → List Byte
  | .brk => [0x00]
  | .ldaIndirectX b => [0xA1, b]
  | .ldaZeroPage b => [0xA5, b]
  | .ldaImmediate b => [0xA9, b]
  | .tax => [0xAA]
  | .ldaAbsolute w => [0xAD, Machine.lowByte w, Machine.highByte w]
  | .ldaIndirectY b => [0xB1, b]
  | .ldaZeroPageX b => [0xB5, b]
  | .ldaAbsoluteY w => [0xB9, Machine.lowByte w, Machine.highByte w]
  | .ldaAbsoluteX w => [0xBD, Machine.lowByte w, Machine.highByte w]
  | .inx => [0xE8]

/-- The three bytes, in ascending address order, of an instruction given as a number whose bit 0 is bit 0 of the
opcode byte; the bits above `nbits` are zero. -/
def tableWordBytes (nbits w : Nat) : List Byte :=
  let v := w % 2 ^ nbits
  [BitVec.ofNat 8 v, BitVec.ofNat 8 (v / 256), BitVec.ofNat 8 (v / 65536)]

/-- The instruction the decoder reads from a word numbered as spec/opcode_table.json numbers it. -/
def decodeTableWord (nbits w : Nat) : Option Instr :=
  match decode (tableWordBytes nbits w) with
  | .ok (i, _) => some i
  | .error _ => none

end Sys2Proof
end

