-- ==== Sys2Proof/Machine/Flags.lean ====
section
/-! DEFINITION. The status byte's fields (spec/10_state.md R27) and the flag-update policy (spec/41_flag_update.md). -/

namespace Sys2Proof.Machine

/-- N, bit 7 (R28). -/
def flagN (p : Byte) : Bool := p.getLsbD 7

/-- V, bit 6 (R30): storage only. -/
def flagV (p : Byte) : Bool := p.getLsbD 6

/-- U, bit 5 (R30): storage only. -/
def flagU (p : Byte) : Bool := p.getLsbD 5

/-- B, bit 4 (R30): storage only. -/
def flagB (p : Byte) : Bool := p.getLsbD 4

/-- D, bit 3 (R30): storage only. -/
def flagD (p : Byte) : Bool := p.getLsbD 3

/-- I, bit 2 (R30): storage only. -/
def flagI (p : Byte) : Bool := p.getLsbD 2

/-- Z, bit 1 (R29). -/
def flagZ (p : Byte) : Bool := p.getLsbD 1

/-- C, bit 0 (R30): storage only. -/
def flagC (p : Byte) : Bool := p.getLsbD 0

/-- `update_flags(result)` on the packed byte `p`, the second form of R120. -/
def updateFlags (p result : Byte) : Byte :=
  (p &&& 0x7D#8) ||| (if result = 0x00#8 then 0x02#8 else 0x00#8) ||| (result &&& 0x80#8)

end Sys2Proof.Machine
end

