-- ==== Sys2Proof/Config.lean ====
section
/-! DEFINITION. The parameters of the hardware (spec/00_scope.md R5). The spec leaves exactly one of them open,
`MEM_INIT` (spec/92_eei_decisions.md D7), and nothing in this hardware is a free value (spec/10_state.md R37). -/

namespace Sys2Proof

/-- `MEM_SIZE` of R5: the number of bytes of the one address space. -/
def Config.memSize : Nat := 65536

/-- `RESET_VECTOR` of R5: the address of the reset vector's low byte. -/
def Config.resetVector : Addr := 0xFFFC#16

/-- `ORIGIN` of R5: where the loader places a program image. -/
def Config.origin : Addr := 0x8000#16

/-- The longest image the loader accepts (R204: `len <= 0x8000`). -/
def Config.maxImage : Nat := 0x8000

/-- `MEM_INIT` of R5 and D7, at its default: what a byte reads as that nothing has written.
DESIGN CHOICE (log entry 3): the parameter is fixed at the source's value. -/
def Config.memInit (_ : Addr) : Byte := 0x00#8

end Sys2Proof
end

