-- ==== Sys2Proof/Machine/State.lean ====
section
/-! DEFINITION. The whole architectural state (spec/10_state.md R20), the outcomes a step can stop with, and the state
after reset. -/

namespace Sys2Proof.Machine

/-- `MEM` (R34, R50): the bytes that differ from the power-on contents, as (address, byte) pairs in the canonical form
`Memory.wf` of Machine/Ops.lean. An address with no entry reads as `Config.memInit`. -/
abbrev Memory := List Host.Cell

/-- The two fatal conditions (R170). -/
inductive FatalKind where
  /-- "the dispatcher decodes a byte with no registered handler" (R171). -/
  | unimplementedOpcode
  /-- "the resolver is invoked with `NoneAddressing`" (R172); no instruction of the table reaches it. -/
  | invalidAddressingMode
  deriving DecidableEq, Repr

/-- `RS`, the run state (R35). -/
inductive RunState where
  | running
  | halted
  /-- `Faulted(kind, opcode, at)`: the condition, the opcode byte fetched, and the address it was fetched from. -/
  | faulted (kind : FatalKind) (opcode : Byte) (fetchedAt : Addr)
  deriving DecidableEq, Repr

/-- The architectural state, complete by R20. -/
structure State where
  /-- The accumulator (R21). -/
  a : Byte
  /-- Index register X (R22). -/
  x : Byte
  /-- Index register Y (R23). -/
  y : Byte
  /-- Processor status: N V U B D I Z C from bit 7 down to bit 0 (R27). -/
  p : Byte
  /-- The program counter (R25). -/
  pc : Addr
  /-- The run state (R35). -/
  rs : RunState
  /-- Memory (R34). -/
  mem : Memory
  deriving DecidableEq, Repr

/-- Reasons the machine stops with no next state. There are none: both fatal conditions of the spec are next states
with `rs = .faulted ..` (R173), and no memory access can fault (R51). Safe: a step always has a next state to speak of. -/
inductive Fault where
  deriving DecidableEq, Repr

/-- Reasons for a refusal. -/
inductive Refusal where
  /-- Raised by an arm of `exec` whose instruction has no meaning yet; no arm is left in that state. Safe. -/
  | notModelled (mnemonic : String)
  /-- Raised by the host operation `load_program` for an image longer than 0x8000 bytes (R204, U3), and by
  `load_and_run`, whose first part it is, for the same image (DESIGN CHOICE, log entry 14); never by a step.
  Safe: nothing is claimed of the state after it. -/
  | imageTooLong
  deriving DecidableEq, Repr

/-- The machine right after its first reset: power-on (R202) followed by `reset()` (R200), as R206 describes it with no
vector written. `Sys2Proof.Laws.reset_eq_performReset_powerOn` shows it is those two operations composed. -/
def State.reset : State :=
  { a := 0x00, x := 0x00, y := 0x00, p := 0x00, pc := 0x0000, rs := .running, mem := [] }

end Sys2Proof.Machine
end

