-- ==== Sys2Proof/Machine/Ops.lean ====
section
/-! DEFINITION. The named operations over memory (spec/20_memory.md), the register writes with their flag update, the
program counter's advance, the fatal conditions and reset. -/

namespace Sys2Proof.Machine

/-! Memory. -/

/-- The entry of an address, if it has one. -/
def Memory.find (k : Nat) : Memory → Option Byte
  | [] => none
  | (j, v) :: m => if j = k then some v else Memory.find k m

/-- The list with the entry `(k, v)` put at its place in address order. -/
def Memory.put (k : Nat) (v : Byte) : Memory → Memory
  | [] => [(k, v)]
  | (j, u) :: m =>
    if k < j then (k, v) :: (j, u) :: m
    else if k = j then (k, v) :: m
    else (j, u) :: Memory.put k v m

/-- The list without the entry of an address. -/
def Memory.forget (k : Nat) : Memory → Memory
  | [] => []
  | (j, u) :: m => if j = k then Memory.forget k m else (j, u) :: Memory.forget k m

/-- `MemRead(addr, 1)` (R52). -/
def Memory.read (m : Memory) (a : Addr) : Byte := (Memory.find a.toNat m).getD (Config.memInit a)

/-- `MemWrite(addr, 1, v)` (R53); writing what an unlisted address reads as removes the entry. -/
def Memory.write (m : Memory) (a : Addr) (v : Byte) : Memory :=
  if v = Config.memInit a then Memory.forget a.toNat m else Memory.put a.toNat v m

/-- The canonical form from address `lo` upward: addresses strictly rising and inside the address space, and no entry
equal to what an unlisted address reads as. -/
def Memory.wfFrom : Nat → Memory → Bool
  | _, [] => true
  | lo, (k, v) :: m =>
    decide (lo ≤ k) && decide (k < Config.memSize) && (v != Config.memInit (BitVec.ofNat 16 k))
      && Memory.wfFrom (k + 1) m

/-- The canonical form of memory. -/
def Memory.wf (m : Memory) : Bool := Memory.wfFrom 0 m

/-- `MemRead(addr, 2)` (R54): little-endian, the second address wrapping at 65536. -/
def Memory.readWord (m : Memory) (a : Addr) : Addr := joinBytes (m.read (a + 1)) (m.read a)

/-- The pointer fetch of the indirect modes (R108, R109): little-endian, the second address wrapping at 256. -/
def Memory.readZeroPagePointer (m : Memory) (ptr : Byte) : Addr :=
  joinBytes (m.read (zext16 (ptr + 1))) (m.read (zext16 ptr))

/-- `MemWrite(addr, 2, v)` (R55). -/
def Memory.writeWord (m : Memory) (a v : Addr) : Memory := (m.write a (lowByte v)).write (a + 1) (highByte v)

/-- Byte writes at ascending addresses, which wrap at 65536 (R51). -/
def Memory.writeBytes (m : Memory) (a : Addr) : List Byte → Memory
  | [] => m
  | b :: bs => Memory.writeBytes (m.write a b) (a + 1) bs

/-- The bytes of the longest instruction, from its opcode byte upward (R80). -/
def fetchBytes (m : Memory) (a : Addr) : List Byte := [m.read a, m.read (a + 1), m.read (a + 2)]

/-! Registers. -/

/-- `PC <- PC +16 n` (R26). -/
def advancePc (n : Nat) (s : State) : State := { s with pc := s.pc + BitVec.ofNat 16 n }

/-- `A <- v; update_flags(v)` (R145). -/
def writeA (v : Byte) (s : State) : State := { s with a := v, p := updateFlags s.p v }

/-- `X <- v; update_flags(v)` (R160, R161). -/
def writeX (v : Byte) (s : State) : State := { s with x := v, p := updateFlags s.p v }

/-- `RS <- Halted` (R140). -/
def halt (s : State) : State := { s with rs := .halted }

/-! Fatal conditions and reset. -/

/-- `raise K(opcode, at)` (R173): the run state records the condition and nothing else changes. -/
def raiseFatal (kind : FatalKind) (opcode : Byte) (fetchedAt : Addr) (s : State) : State :=
  { s with rs := .faulted kind opcode fetchedAt }

/-- `reset()` (R200), accepted in every run state (R203). It is the only way on from a halt or a fatal condition: there
is no return from one (R175). -/
def performReset (s : State) : State :=
  { s with a := 0x00, x := 0x00, y := 0x00, p := 0x00,
           pc := s.mem.readWord Config.resetVector, rs := .running }

end Sys2Proof.Machine
end

