-- ==== Sys2Proof/Machine/Operands.lean ====
section
/-! DEFINITION. The addressing-mode resolver (spec/40_addressing_modes.md): all ten modes, the operand bytes they take,
the effective address and the datum, and the memory reads they make. On entry `pc` is the address of the first operand
byte (R100). -/

namespace Sys2Proof.Machine

/-- The effective address of an operand (R101 to R110); `none` is the condition `InvalidAddressingMode` of R110. -/
def operandAddress (o : Operand) (s : State) : Option Addr :=
  match o with
  | .immediate _ => some s.pc
  | .zeroPage b => some (zext16 b)
  | .zeroPageX b => some (zext16 (b + s.x))
  | .zeroPageY b => some (zext16 (b + s.y))
  | .absolute w => some w
  | .absoluteX w => some (w + zext16 s.x)
  | .absoluteY w => some (w + zext16 s.y)
  | .indirectX b => some (s.mem.readZeroPagePointer (b + s.x))
  | .indirectY b => some (s.mem.readZeroPagePointer b + zext16 s.y)
  | .noneAddressing => none

/-- The byte an operand supplies: the byte at its effective address, which for Immediate is the operand byte itself
(R83). -/
def operandDatum (o : Operand) (s : State) : Option Byte :=
  match o with
  | .immediate b => some b
  | o => (operandAddress o s).map s.mem.read

/-- The operand a mode takes from the bytes at `pc` (R81, R83). -/
def fetchOperand (m : Mode) (s : State) : Operand :=
  match m with
  | .immediate => .immediate (s.mem.read s.pc)
  | .zeroPage => .zeroPage (s.mem.read s.pc)
  | .zeroPageX => .zeroPageX (s.mem.read s.pc)
  | .zeroPageY => .zeroPageY (s.mem.read s.pc)
  | .absolute => .absolute (s.mem.readWord s.pc)
  | .absoluteX => .absoluteX (s.mem.readWord s.pc)
  | .absoluteY => .absoluteY (s.mem.readWord s.pc)
  | .indirectX => .indirectX (s.mem.read s.pc)
  | .indirectY => .indirectY (s.mem.read s.pc)
  | .noneAddressing => .noneAddressing

/-- `EA(mode)` of R100, from the mode tag and the current state. -/
def effectiveAddress (m : Mode) (s : State) : Option Addr := operandAddress (fetchOperand m s) s

/-- The bytes the resolver reads for a mode, in the order of R113 (operand bytes ascending, then the pointer's low byte
and high byte). -/
def resolverReads (m : Mode) (s : State) : List Addr :=
  match m with
  | .immediate => []
  | .zeroPage => [s.pc]
  | .zeroPageX => [s.pc]
  | .zeroPageY => [s.pc]
  | .absolute => [s.pc, s.pc + 1]
  | .absoluteX => [s.pc, s.pc + 1]
  | .absoluteY => [s.pc, s.pc + 1]
  | .indirectX =>
    let ptr := s.mem.read s.pc + s.x
    [s.pc, zext16 ptr, zext16 (ptr + 1)]
  | .indirectY =>
    let base := s.mem.read s.pc
    [s.pc, zext16 base, zext16 (base + 1)]
  | .noneAddressing => []

end Sys2Proof.Machine
end

