-- ==== Sys2Proof/Machine/Load.lean ====
section
/-! DEFINITION. The load instruction LDA (spec/44_load_lda.md): the common meaning of R145 and one definition per
opcode. On entry the dispatcher has set `pc` to the address after the opcode byte. -/

namespace Sys2Proof.Machine

/-- `LDA(m)` of R145 for an operand of mode `m`. An operand with no datum raises `InvalidAddressingMode` (R110) for the
opcode byte just fetched; the eight opcodes below never do. -/
def loadAccumulator (o : Operand) (s : State) : Host.Outcome State Fault Refusal :=
  match operandDatum o s with
  | some v => .next (advancePc (operandBytes o.mode) (writeA v s))
  | none => .next (raiseFatal .invalidAddressingMode (s.mem.read (s.pc - 1)) (s.pc - 1) s)

/-- LDA Immediate, `0xA9` (R146). -/
def execLdaImmediate (b : Byte) (s : State) : Host.Outcome State Fault Refusal :=
  loadAccumulator (.immediate b) s

/-- LDA ZeroPage, `0xA5` (R147). -/
def execLdaZeroPage (b : Byte) (s : State) : Host.Outcome State Fault Refusal :=
  loadAccumulator (.zeroPage b) s

/-- LDA ZeroPage,X, `0xB5` (R148). -/
def execLdaZeroPageX (b : Byte) (s : State) : Host.Outcome State Fault Refusal :=
  loadAccumulator (.zeroPageX b) s

/-- LDA Absolute, `0xAD` (R149). -/
def execLdaAbsolute (w : Addr) (s : State) : Host.Outcome State Fault Refusal :=
  loadAccumulator (.absolute w) s

/-- LDA Absolute,X, `0xBD` (R150). -/
def execLdaAbsoluteX (w : Addr) (s : State) : Host.Outcome State Fault Refusal :=
  loadAccumulator (.absoluteX w) s

/-- LDA Absolute,Y, `0xB9` (R151). -/
def execLdaAbsoluteY (w : Addr) (s : State) : Host.Outcome State Fault Refusal :=
  loadAccumulator (.absoluteY w) s

/-- LDA Indirect,X, `0xA1` (R152). -/
def execLdaIndirectX (b : Byte) (s : State) : Host.Outcome State Fault Refusal :=
  loadAccumulator (.indirectX b) s

/-- LDA Indirect,Y, `0xB1` (R153). -/
def execLdaIndirectY (b : Byte) (s : State) : Host.Outcome State Fault Refusal :=
  loadAccumulator (.indirectY b) s

end Sys2Proof.Machine
end

