-- ==== Sys2Proof/Machine/Register.lean ====
section
/-! DEFINITION. The register instructions TAX and INX (spec/45_register_tax_inx.md). -/

namespace Sys2Proof.Machine

/-- TAX, `0xAA` (R160): X takes A's value, and the flags follow the new X. -/
def execTax (s : State) : Host.Outcome State Fault Refusal := .next (writeX s.a s)

/-- INX, `0xE8` (R161): `X <- X +8 1`, and the flags follow the new X. -/
def execInx (s : State) : Host.Outcome State Fault Refusal := .next (writeX (s.x + 1) s)

end Sys2Proof.Machine
end

