-- ==== Sys2Proof/Machine/System.lean ====
section
/-! DEFINITION. The system instruction BRK (spec/43_system_brk.md). -/

namespace Sys2Proof.Machine

/-- BRK, `0x00` (R140): the run halts and nothing else changes. -/
def execBrk (s : State) : Host.Outcome State Fault Refusal := .next (halt s)

end Sys2Proof.Machine
end

