-- ==== Sys2Proof/Machine/Step.lean ====
section
/-! DEFINITION. The step (spec/42_dispatch_loop.md R125 to R130) and the placing of one instruction where it fetches. -/

namespace Sys2Proof.Machine

/-- One step (R125): fetch, advance `pc` past the opcode byte, dispatch. A byte outside the table raises
`UnimplementedOpcode` with the advance applied (R171). Outside `Running` a step leaves the state unchanged (R129). -/
def step (s : State) : Host.Outcome State Fault Refusal :=
  if s.rs = .running then
    match decode (fetchBytes s.mem s.pc) with
    | .ok (i, _) => exec i (advancePc 1 s)
    | .error _ => .next (raiseFatal .unimplementedOpcode (s.mem.read s.pc) s.pc (advancePc 1 s))
  else .next s

/-- `s` with one instruction, numbered as spec/opcode_table.json numbers it, stored at `pc`, and running, so that the
next step fetches and runs it. It stands for the host's load (R205; log entry 4). -/
def State.withFetchWord (s : State) (nbits w : Nat) : State :=
  { s with rs := .running, mem := s.mem.writeBytes s.pc (tableWordBytes nbits w) }

end Sys2Proof.Machine
end

