-- ==== Sys2Proof/Machine/HostOps.lean ====
section
/-! DEFINITION. The host's side of the interface (spec/10_state.md R42, R43; spec/42_dispatch_loop.md R128, R133;
spec/70_reset_and_hazards.md R202 to R207): power-on, the host operations and observation. Each acts between two steps
and is itself indivisible (R130, R207). -/

namespace Sys2Proof.Machine

/-- `new()` (R202) with memory contents `init`: zeroed registers, and no step before the first reset. Every function
`MEM_INIT` of D7 is some canonical `init`. -/
def powerOnWith (init : Memory) : State :=
  { a := 0x00, x := 0x00, y := 0x00, p := 0x00, pc := 0x0000, rs := .halted, mem := init }

/-- `new()` (R202) with `MEM_INIT` at its default, every byte zero. -/
def powerOn : State := powerOnWith []

/-- The registers and run state the host can read between steps (R43). -/
structure Observation where
  a : Byte
  x : Byte
  y : Byte
  p : Byte
  pc : Addr
  rs : RunState
  deriving DecidableEq, Repr

/-- Observation (R43). -/
def observe (s : State) : Observation := { a := s.a, x := s.x, y := s.y, p := s.p, pc := s.pc, rs := s.rs }

/-- `read(addr)` (R52, R65). -/
def hostRead (addr : Addr) (s : State) : Byte := s.mem.read addr

/-- `read_word(addr)` (R54). -/
def hostReadWord (addr : Addr) (s : State) : Addr := s.mem.readWord addr

/-- `write(addr, value)` (R53, R65). -/
def hostWrite (addr : Addr) (value : Byte) (s : State) : State := { s with mem := s.mem.write addr value }

/-- `write_word(addr, value)` (R55). -/
def hostWriteWord (addr value : Addr) (s : State) : State := { s with mem := s.mem.writeWord addr value }

/-- `load_program(bytes)` (R204): the image at the origin, then the origin as the reset vector; an image that does not
fit is refused. -/
def loadProgram (bytes : List Byte) (s : State) : Host.Outcome State Fault Refusal :=
  if bytes.length ≤ Config.maxImage then
    .next { s with mem := (s.mem.writeBytes Config.origin bytes).writeWord Config.resetVector Config.origin }
  else .refused .imageTooLong

/-- `run()` (R128) cut off after `fuel` steps: steps while the run state is `Running`. -/
def runFor : Nat → State → Host.Outcome State Fault Refusal
  | 0, s => .next s
  | fuel + 1, s =>
    if s.rs = .running then
      match step s with
      | .next t => runFor fuel t
      | .fault r => .fault r
      | .refused r => .refused r
    else .next s

/-- `load_and_run(bytes)` (R133): load, reset, run, in that order. DESIGN CHOICE (log entry 14): where the load is
refused (R204, D12) the whole composition is refused, and no reset and no run follows; R133, R204 and D12 say this of
`load_program` alone. -/
def loadAndRunFor (fuel : Nat) (bytes : List Byte) (s : State) : Host.Outcome State Fault Refusal :=
  match loadProgram bytes s with
  | .next t => runFor fuel (performReset t)
  | .fault r => .fault r
  | .refused r => .refused r

/-- The host operations that can change the state (R207). -/
inductive HostOp where
  | loadProgram (bytes : List Byte)
  | reset
  | run (fuel : Nat)
  | step
  | loadAndRun (fuel : Nat) (bytes : List Byte)
  | write (addr : Addr) (value : Byte)
  | writeWord (addr value : Addr)
  deriving DecidableEq, Repr

/-- The effect of a host operation (R207). -/
def applyHostOp (op : HostOp) (s : State) : Host.Outcome State Fault Refusal :=
  match op with
  | .loadProgram bytes => loadProgram bytes s
  | .reset => .next (performReset s)
  | .run fuel => runFor fuel s
  | .step => step s
  | .loadAndRun fuel bytes => loadAndRunFor fuel bytes s
  | .write addr value => .next (hostWrite addr value s)
  | .writeWord addr value => .next (hostWriteWord addr value s)

end Sys2Proof.Machine
end

