-- ==== Sys2Proof/Machine/Reference.lean ====
section
/-! DEFINITION. The step as the spec's own pseudocode writes it (spec/42_dispatch_loop.md R125, spec/44_load_lda.md
R145): the opcode byte alone is decoded, and a handler reads its operand bytes from memory through the resolver. `step`
decodes the whole instruction first; that the two agree is a statement (`Obligations.StepRefinesPseudocode`). -/

namespace Sys2Proof.Machine

/-- `LDA(m)` of R145, its operand bytes read at `pc` by `EA(m)`. -/
def pseudoLda (m : Mode) (opcode : Byte) (fetchedAt : Addr) (s : State) : State :=
  match effectiveAddress m s with
  | none => raiseFatal .invalidAddressingMode opcode fetchedAt s
  | some ea =>
    let v := s.mem.read ea
    { s with a := v, p := updateFlags s.p v, pc := s.pc + BitVec.ofNat 16 (operandBytes m) }

/-- The dispatch of R125 on the row the opcode byte selects. -/
def pseudoDispatch (d : Descriptor) (opcode : Byte) (fetchedAt : Addr) (s : State) : State :=
  match d.mnemonic with
  | .brk => { s with rs := .halted }
  | .lda => pseudoLda d.mode opcode fetchedAt s
  | .tax => { s with x := s.a, p := updateFlags s.p s.a }
  | .inx => { s with x := s.x + 1, p := updateFlags s.p (s.x + 1) }

/-- The step of R125, with no step outside `Running` (R129). -/
def pseudoStep (s : State) : State :=
  match s.rs with
  | .running =>
    let opcode := s.mem.read s.pc
    let fetched := { s with pc := s.pc + 1 }
    match descriptorOf opcode with
    | some d => pseudoDispatch d opcode s.pc fetched
    | none => raiseFatal .unimplementedOpcode opcode s.pc fetched
  | .halted => s
  | .faulted _ _ _ => s

/-- The memory reads of one step, in order (R58, R113): the opcode byte, then for LDA the resolver's reads and the
datum. -/
def stepReads (s : State) : List Addr :=
  match s.rs with
  | .running =>
    match descriptorOf (s.mem.read s.pc) with
    | some ⟨.lda, m, _⟩ =>
      let fetched := { s with pc := s.pc + 1 }
      s.pc :: (resolverReads m fetched ++ (effectiveAddress m fetched).toList)
    | some ⟨.brk, _, _⟩ => [s.pc]
    | some ⟨.tax, _, _⟩ => [s.pc]
    | some ⟨.inx, _, _⟩ => [s.pc]
    | none => [s.pc]
  | .halted => []
  | .faulted _ _ _ => []

end Sys2Proof.Machine
end

