-- ==== Sys2Proof/Safety.lean ====
section
/-! DEFINITION. What counts as a run and as its end (spec/70_reset_and_hazards.md R215), the invariant of the states a
host can bring about, and the vocabulary the statements are written in: datum addresses as numbers, and what one
instruction may leave behind. -/

namespace Sys2Proof.Safety

open Sys2Proof.Machine

/-! Runs. -/

/-- `run()` from `s` returns in state `t` (R128). A run that never leaves `Running` has no such `t`. From a state that
is not `Running`, `run()` returns at once with that state (R129, log entry 1). -/
def RunEndsIn (s t : State) : Prop := ∃ fuel, runFor fuel s = .next t ∧ t.rs ≠ .running

/-- A run that completed normally: it ended and its run state is `Halted` (R215). This is the safe end of a run.
DESIGN CHOICE (log entry 15): R215 defines completion for a run that began with `reset()` and says nothing of a `run()`
issued in any other state; here `s` is any state, so a state that is already halted (power-on too) completes in itself
with no BRK executed. A claim about a run in the sense of R215 takes `performReset s` for the start. -/
def CompletesIn (s t : State) : Prop := RunEndsIn s t ∧ t.rs = .halted

/-- A run that failed: it ended in a fatal condition (R215). As with `CompletesIn`, `s` is any state (DESIGN CHOICE, log
entry 15), so a state that is already faulted fails in itself. -/
def FailsIn (s t : State) : Prop := RunEndsIn s t ∧ ∃ kind opcode fetchedAt, t.rs = .faulted kind opcode fetchedAt

/-- The states a host can bring about with the operations of R207, from power-on with any memory contents (D7). -/
inductive HostReachable : State → Prop where
  | powerOn (init : Memory) : init.wf = true → HostReachable (powerOnWith init)
  | apply {s t : State} (op : HostOp) : HostReachable s → applyHostOp op s = .next t → HostReachable t

/-! The invariant. -/

/-- A fault record names a byte outside the opcode table, at the address just behind `pc` (R171, R173). -/
def FaultRecordSound (s : State) : Prop :=
  ∀ kind opcode fetchedAt, s.rs = .faulted kind opcode fetchedAt →
    kind = .unimplementedOpcode ∧ descriptorOf opcode = none ∧ s.pc = fetchedAt + 1

/-- The three patterns of P that instructions can leave after a reset (R31). -/
def ReachableStatus (p : Byte) : Prop := p = 0x00 ∨ p = 0x02 ∨ p = 0x80

/-- Canonical memory, Y zero (R23), a status of R31, and a sound fault record. -/
def CoreInv (s : State) : Prop :=
  s.mem.wf = true ∧ s.y = 0x00 ∧ ReachableStatus s.p ∧ FaultRecordSound s

/-! Vocabulary of the statements. -/

/-- The byte at a numeric address, taken modulo 65536 (R51). -/
def byteAt (m : Memory) (n : Nat) : Byte := m.read (BitVec.ofNat 16 n)

/-- The little-endian word at two numeric addresses. -/
def wordAt (m : Memory) (lo hi : Nat) : Nat := (byteAt m hi).toNat * 256 + (byteAt m lo).toNat

/-- The eight opcode bytes of LDA (R84). -/
def ldaOpcodes : List Byte := [0xA1, 0xA5, 0xA9, 0xAD, 0xB1, 0xB5, 0xB9, 0xBD]

/-- The eleven opcode bytes of the table (R84). -/
def implementedOpcodes : List Byte :=
  [0x00, 0xA1, 0xA5, 0xA9, 0xAA, 0xAD, 0xB1, 0xB5, 0xB9, 0xBD, 0xE8]

/-- `new` is `old` after a flag update with `result`, bit by bit: Z says whether the result is zero, N is its bit 7, and
every other bit is as it was (the first form of R120; R122). -/
def FlagsFrom (result old new : Byte) : Prop :=
  new.getLsbD 1 = decide (result = 0) ∧ new.getLsbD 7 = result.getLsbD 7 ∧
    ∀ k, k ≠ 1 → k ≠ 7 → new.getLsbD k = old.getLsbD k

/-- Every byte of memory reads as before, and the memories are the same data. -/
def SameMemory (s t : State) : Prop := t.mem = s.mem ∧ ∀ c : Addr, t.mem.read c = s.mem.read c

/-- `t` is `s` with `v` loaded into A, the flags following `v`, and `pc` advanced by `n`; nothing else differs. -/
def LoadsA (v : Byte) (n : Nat) (s t : State) : Prop :=
  t.a = v ∧ FlagsFrom v s.p t.p ∧ t.pc.toNat = (s.pc.toNat + n) % 65536 ∧
    t.x = s.x ∧ t.y = s.y ∧ t.rs = s.rs ∧ SameMemory s t

/-- `t` is `s` with `v` written to X, the flags following `v`, and `pc` advanced by `n`; nothing else differs. -/
def LoadsX (v : Byte) (n : Nat) (s t : State) : Prop :=
  t.x = v ∧ FlagsFrom v s.p t.p ∧ t.pc.toNat = (s.pc.toNat + n) % 65536 ∧
    t.a = s.a ∧ t.y = s.y ∧ t.rs = s.rs ∧ SameMemory s t

/-- `t` is `s` halted, with `pc` advanced by `n`; nothing else differs. -/
def HaltsAfter (n : Nat) (s t : State) : Prop :=
  t.rs = .halted ∧ t.pc.toNat = (s.pc.toNat + n) % 65536 ∧
    t.a = s.a ∧ t.x = s.x ∧ t.y = s.y ∧ t.p = s.p ∧ SameMemory s t

/-- The registers other than `pc` and the run state are as they were. -/
def SameRegisters (s t : State) : Prop := t.a = s.a ∧ t.x = s.x ∧ t.y = s.y ∧ t.p = s.p

end Sys2Proof.Safety
end

