-- ==== Sys2Proof/Certificates/Slice0/Obligations.lean ====
section
/-! DEFINITION. The statements for the provers. A docstring cites the rule a statement formalises; where a clause rests
on a sentence the spec marks as derived or as its own decision, the docstring says so and the statement's basis is
'derived'. -/

open Sys2Proof Sys2Proof.Machine Sys2Proof.Safety

/-! ## The step -/

/-- R126: when the bytes at `pc` decode to an instruction, BRK among them, the step is `exec` of it with `pc` past the
opcode byte, so the advance comes before the dispatch (the handler's own advance past the operand bytes is part of
`exec`); and when they decode to none, the faulting step has made the same advance. -/
def Obligations.StepRunsDecodedInstruction : Prop :=
  (∀ (s : State) (i : Instr) (rest : List Byte), s.rs = .running →
    decode [byteAt s.mem s.pc.toNat, byteAt s.mem (s.pc.toNat + 1), byteAt s.mem (s.pc.toNat + 2)] = .ok (i, rest) →
    step s = exec i { s with pc := s.pc + 1 }) ∧
  (∀ (s : State) (e : DecodeError), s.rs = .running →
    decode [byteAt s.mem s.pc.toNat, byteAt s.mem (s.pc.toNat + 1), byteAt s.mem (s.pc.toNat + 2)] = .error e →
    ∃ t, step s = .next t ∧ t.pc.toNat = (s.pc.toNat + 1) % 65536)

/-- R125 with R100 to R110, R145, R140, R160, R161, R171: the step that decodes a whole instruction first agrees, in
every state, with the spec's own pseudocode, in which the opcode byte alone is decoded and each handler reads its operand
bytes from memory through the resolver. The clauses on the run state rest on decisions D2 and D4 (log entries 1, 2). -/
def Obligations.StepRefinesPseudocode : Prop :=
  ∀ s : State, step s = .next (pseudoStep s)

/-- R71: a step never faults and is never refused in the model's sense; both fatal conditions of R170 are next states
(log entry 2). -/
def Obligations.StepAlwaysAnswersNext : Prop :=
  (∀ s : State, ∃ t, step s = .next t) ∧ (∀ (i : Instr) (s : State), ∃ t, exec i s = .next t)

/-- The last sentence of R129 is decision D4 (log entry 1): outside `Running` neither a step nor a run changes
anything. -/
def Obligations.NoStepOutsideRunning : Prop :=
  ∀ (s : State) (fuel : Nat), s.rs ≠ .running → step s = .next s ∧ runFor fuel s = .next s

/-- The table of R131 (marked derived) with the frame of every step: what a step may change, by opcode byte, and that
every other register, flag and memory byte is as before. -/
def Obligations.StepFrameByOpcode : Prop :=
  ∀ s t : State, s.rs = .running → step s = .next t →
    t.y = s.y ∧
    (∀ c : Addr, t.mem.read c = s.mem.read c) ∧
    (∀ k, k ≠ 1 → k ≠ 7 → t.p.getLsbD k = s.p.getLsbD k) ∧
    (byteAt s.mem s.pc.toNat ∉ ldaOpcodes → t.a = s.a) ∧
    (byteAt s.mem s.pc.toNat ≠ 0xAA → byteAt s.mem s.pc.toNat ≠ 0xE8 → t.x = s.x) ∧
    ((byteAt s.mem s.pc.toNat = 0x00 ∨ byteAt s.mem s.pc.toNat ∉ implementedOpcodes) → t.p = s.p) ∧
    (byteAt s.mem s.pc.toNat ∈ implementedOpcodes → byteAt s.mem s.pc.toNat ≠ 0x00 → t.rs = .running) ∧
    ((byteAt s.mem s.pc.toNat = 0x00 ∨ byteAt s.mem s.pc.toNat ∉ implementedOpcodes) →
      t.pc.toNat = (s.pc.toNat + 1) % 65536 ∧ t.rs ≠ .running)

/-- The frame of the dispatched instructions, BRK, TAX, INX and the eight LDA: which register each may change; `pc` moves
only by LDA's operand bytes. -/
def Obligations.ExecFrame : Prop :=
  ∀ (i : Instr) (s t : State), exec i s = .next t →
    t.y = s.y ∧ (∀ c : Addr, t.mem.read c = s.mem.read c) ∧
    (∀ k, k ≠ 1 → k ≠ 7 → t.p.getLsbD k = s.p.getLsbD k) ∧
    (i.mnemonic ≠ .lda → t.a = s.a ∧ t.pc = s.pc) ∧
    (i.mnemonic ≠ .tax → i.mnemonic ≠ .inx → t.x = s.x) ∧
    (i.mnemonic = .brk → t.p = s.p) ∧
    (i.mnemonic ≠ .brk → t.rs = s.rs)

/-- R132 (marked derived) with R112: control flow is sequential. A step that keeps the core running moves `pc` past
exactly the bytes of the instruction, modulo 65536, and that length is one opcode byte and the mode's operand bytes. -/
def Obligations.ControlFlowIsSequential : Prop :=
  ∀ (s t : State) (i : Instr) (rest : List Byte), s.rs = .running →
    decode (fetchBytes s.mem s.pc) = .ok (i, rest) → step s = .next t →
    t.pc.toNat = (s.pc.toNat + (encode i).length) % 65536 ∧
    (encode i).length = 1 + operandBytes i.operand.mode

/-! ## Encoding -/

/-- Words written out from R81 and R84 decode to the instructions they stand for, one for each row of the table. -/
def Obligations.SampleWordsDecode : Prop :=
  decode [0b00000000] = .ok (.brk, []) ∧
  decode [0b10100001, 0b00100000] = .ok (.ldaIndirectX 0x20, []) ∧
  decode [0b10100101, 0b00010000] = .ok (.ldaZeroPage 0x10, []) ∧
  decode [0b10101001, 0b00000101] = .ok (.ldaImmediate 0x05, []) ∧
  decode [0b10101010] = .ok (.tax, []) ∧
  decode [0b10101101, 0b00110100, 0b00010010] = .ok (.ldaAbsolute 0x1234, []) ∧
  decode [0b10110001, 0b00100000] = .ok (.ldaIndirectY 0x20, []) ∧
  decode [0b10110101, 0b00010000] = .ok (.ldaZeroPageX 0x10, []) ∧
  decode [0b10111001, 0b00110100, 0b00010010] = .ok (.ldaAbsoluteY 0x1234, []) ∧
  decode [0b10111101, 0b00110100, 0b00010010] = .ok (.ldaAbsoluteX 0x1234, []) ∧
  decode [0b11101000] = .ok (.inx, [])

/-- R87: every opcode byte other than the eleven distinct ones of R84, whatever follows it, is rejected by name, and a
step that fetches it raises `UnimplementedOpcode` (R171, R173); that the run state holds the condition is decision D2
(log entry 2). -/
def Obligations.OtherOpcodesRejected : Prop :=
  (∀ (op : Byte) (rest : List Byte), op ∉ implementedOpcodes →
    decode (op :: rest) = .error (.unimplementedOpcode op) ∧ descriptorOf op = none) ∧
  implementedOpcodes.Nodup ∧ implementedOpcodes.length = 11 ∧
  (∀ s : State, s.rs = .running → byteAt s.mem s.pc.toNat ∉ implementedOpcodes →
    ∃ t op fetchedAt, step s = .next t ∧ t.rs = .faulted .unimplementedOpcode op fetchedAt)

/-- R82, R84, R85, R172 (that BRK, TAX and INX carry NoneAddressing is the spec's reading, marked derived): the rows of
the table; an opcode byte has a row exactly when it is one of the eleven; every row is well formed (so no
row has ZeroPage,Y, and LDA never has NoneAddressing); and the decoder's instruction has that row's mnemonic, mode and
length, whatever the operand bytes are. -/
def Obligations.DecoderAgreesWithTable : Prop :=
  (descriptorOf 0x00 = some ⟨.brk, .noneAddressing, 1⟩ ∧ descriptorOf 0xA1 = some ⟨.lda, .indirectX, 2⟩ ∧
    descriptorOf 0xA5 = some ⟨.lda, .zeroPage, 2⟩ ∧ descriptorOf 0xA9 = some ⟨.lda, .immediate, 2⟩ ∧
    descriptorOf 0xAA = some ⟨.tax, .noneAddressing, 1⟩ ∧ descriptorOf 0xAD = some ⟨.lda, .absolute, 3⟩ ∧
    descriptorOf 0xB1 = some ⟨.lda, .indirectY, 2⟩ ∧ descriptorOf 0xB5 = some ⟨.lda, .zeroPageX, 2⟩ ∧
    descriptorOf 0xB9 = some ⟨.lda, .absoluteY, 3⟩ ∧ descriptorOf 0xBD = some ⟨.lda, .absoluteX, 3⟩ ∧
    descriptorOf 0xE8 = some ⟨.inx, .noneAddressing, 1⟩) ∧
  (∀ op : Byte, (descriptorOf op).isSome = true ↔ op ∈ implementedOpcodes) ∧
  (∀ (op : Byte) (d : Descriptor), descriptorOf op = some d → d.wf = true) ∧
  (∀ (op b c : Byte) (rest : List Byte) (d : Descriptor), descriptorOf op = some d →
    ∃ i rest', decode (op :: b :: c :: rest) = .ok (i, rest') ∧ i.descriptor = d ∧
      rest' = (op :: b :: c :: rest).drop d.length)

/-- R80 to R84, R88: decoding and encoding are inverse to each other, with every operand at every value, whatever bytes
follow, in both directions. -/
def Obligations.DecodeEncodeAgree : Prop :=
  ∀ (bytes rest : List Byte) (i : Instr), decode bytes = .ok (i, rest) ↔ bytes = encode i ++ rest

/-- R68 with R80: an instruction's bytes written at `pc`, wrapping at the top of memory, are what the very next step
runs. -/
def Obligations.WrittenInstructionIsFetched : Prop :=
  ∀ (i : Instr) (s : State), s.rs = .running →
    step { s with mem := s.mem.writeBytes s.pc (encode i) } =
      exec i { s with mem := s.mem.writeBytes s.pc (encode i), pc := s.pc + 1 }

/-! ## Flags -/

/-- R120: the flag updater sets Z and N from the result, leaves the six other bits, agrees with the packed formula, and
never leaves Z and N both set. -/
def Obligations.UpdateFlagsRule : Prop :=
  ∀ p v : Byte,
    FlagsFrom v p (updateFlags p v) ∧
    updateFlags p v = ((p &&& 0x7D) ||| (if v = 0 then 0x02 else 0x00) ||| (v &&& 0x80)) ∧
    ¬ (flagZ (updateFlags p v) = true ∧ flagN (updateFlags p v) = true)

/-- R121: LDA updates the flags on the new A, TAX and INX on the new X; BRK, the fetch's advance, and a fatal condition
leave P alone; reset writes zero to it. -/
def Obligations.FlagUpdateInvocations : Prop :=
  (∀ (i : Instr) (s t : State), exec i s = .next t →
    (i.mnemonic = .lda → FlagsFrom t.a s.p t.p) ∧
    (i.mnemonic = .tax → FlagsFrom t.x s.p t.p) ∧
    (i.mnemonic = .inx → FlagsFrom t.x s.p t.p) ∧
    (i.mnemonic = .brk → t.p = s.p)) ∧
  (∀ (n : Nat) (s : State), (advancePc n s).p = s.p) ∧
  (∀ kind op at' s, (raiseFatal kind op at' s).p = s.p) ∧
  (∀ s : State, (performReset s).p = 0x00 ∧ flagZ (performReset s).p = false)

/-- R123: after any load of `v` into A, Z is `v == 0` and N is bit 7 of `v`. -/
def Obligations.FlagsCorrectAfterLoad : Prop :=
  ∀ (i : Instr) (s t : State) (v : Byte), i.mnemonic = .lda → exec i s = .next t → t.a = v →
    flagZ t.p = decide (v.toNat = 0) ∧ flagN t.p = decide (128 ≤ v.toNat)

/-- R30: no instruction reads P. Whatever P held, a step leaves every other part of the state the same. -/
def Obligations.StatusNeverRead : Prop :=
  ∀ (s t : State) (q : Byte), step s = .next t →
    ∃ u, step { s with p := q } = .next u ∧ { u with p := t.p } = t

/-! ## The resolver -/

/-- R101 to R109: the effective address of each of the nine modes that yield one, as a number, from X, Y and the bytes
at `pc`; zero-page sums wrap at 256, 16-bit sums at 65536; the bytes the resolver reads, in order; and that no opcode
selects ZeroPage,Y. -/
def Obligations.ResolverAddresses : Prop :=
  ∀ s : State,
    let b := (byteAt s.mem s.pc.toNat).toNat
    let w := wordAt s.mem s.pc.toNat (s.pc.toNat + 1)
    let x := s.x.toNat
    let y := s.y.toNat
    effectiveAddress .immediate s = some (BitVec.ofNat 16 s.pc.toNat) ∧
    effectiveAddress .zeroPage s = some (BitVec.ofNat 16 b) ∧
    effectiveAddress .zeroPageX s = some (BitVec.ofNat 16 ((b + x) % 256)) ∧
    effectiveAddress .zeroPageY s = some (BitVec.ofNat 16 ((b + y) % 256)) ∧
    effectiveAddress .absolute s = some (BitVec.ofNat 16 w) ∧
    effectiveAddress .absoluteX s = some (BitVec.ofNat 16 ((w + x) % 65536)) ∧
    effectiveAddress .absoluteY s = some (BitVec.ofNat 16 ((w + y) % 65536)) ∧
    effectiveAddress .indirectX s = some (BitVec.ofNat 16 (wordAt s.mem ((b + x) % 256) ((b + x + 1) % 256))) ∧
    effectiveAddress .indirectY s = some (BitVec.ofNat 16 ((wordAt s.mem b ((b + 1) % 256) + y) % 65536)) ∧
    resolverReads .immediate s = [] ∧
    (∀ m ∈ [Mode.zeroPage, .zeroPageX, .zeroPageY], resolverReads m s = [s.pc]) ∧
    (∀ m ∈ [Mode.absolute, .absoluteX, .absoluteY], resolverReads m s = [s.pc, BitVec.ofNat 16 (s.pc.toNat + 1)]) ∧
    resolverReads .indirectX s =
      [s.pc, BitVec.ofNat 16 ((b + x) % 256), BitVec.ofNat 16 ((b + x + 1) % 256)] ∧
    resolverReads .indirectY s = [s.pc, BitVec.ofNat 16 b, BitVec.ofNat 16 ((b + 1) % 256)] ∧
    (∀ (op : Byte) (d : Descriptor), descriptorOf op = some d → d.mode ≠ .zeroPageY)

/-- R110: only NoneAddressing has no effective address, and a load given it raises `InvalidAddressingMode` with nothing
else changed. Which opcode byte and address the condition records is the model's reading of D5 (log entry 7). -/
def Obligations.NoneAddressingRaises : Prop :=
  (∀ (m : Mode) (s : State), effectiveAddress m s = none ↔ m = .noneAddressing) ∧
  (∀ s : State, loadAccumulator .noneAddressing s =
    .next { s with rs := .faulted .invalidAddressingMode (s.mem.read (s.pc - 1)) (s.pc - 1) })

/-- R172 (marked derived; D11): with the table of R84 no step raises `InvalidAddressingMode`. -/
def Obligations.InvalidAddressingModeUnreachable : Prop :=
  ∀ (s t : State) (op : Byte) (fetchedAt : Addr), s.rs = .running → step s = .next t →
    t.rs ≠ .faulted .invalidAddressingMode op fetchedAt

/-- R113 (marked derived; D13): a step depends on memory only through the bytes it lists as its reads: change any other
byte, and the same registers and run state result. -/
def Obligations.StepDependsOnlyOnItsReads : Prop :=
  ∀ (s t : State) (m : Memory), (∀ c ∈ stepReads s, m.read c = s.mem.read c) → step s = .next t →
    stepReads { s with mem := m } = stepReads s ∧
    ∃ u, step { s with mem := m } = .next u ∧ observe u = observe t ∧ u.mem = m

/-- R58 and the counts of R113 (marked derived): the byte reads of one step, by opcode byte; the opcode is read first. -/
def Obligations.ReadsPerStep : Prop :=
  ∀ s : State, s.rs = .running →
    (stepReads s).head? = some s.pc ∧
    (byteAt s.mem s.pc.toNat = 0xA9 → stepReads s = [s.pc, s.pc + 1]) ∧
    (byteAt s.mem s.pc.toNat ∈ [(0xA5 : Byte), 0xB5] → (stepReads s).length = 3) ∧
    (byteAt s.mem s.pc.toNat ∈ [(0xAD : Byte), 0xBD, 0xB9] → (stepReads s).length = 4) ∧
    (byteAt s.mem s.pc.toNat ∈ [(0xA1 : Byte), 0xB1] → (stepReads s).length = 5) ∧
    (byteAt s.mem s.pc.toNat ∉ ldaOpcodes → stepReads s = [s.pc])

/-! ## LDA -/

/-- R114: whatever the mode, a load leaves A and P exactly as an Immediate load of the same byte does, from any state
with the same P; the byte is the one at the effective address. ZeroPage,Y, which no opcode selects, is covered. -/
def Obligations.AddressingModeEquivalence : Prop :=
  ∀ (o : Operand) (s s' : State), o.mode ≠ .noneAddressing → s'.p = s.p →
    ∃ t t', loadAccumulator o s = .next t ∧ exec (.ldaImmediate t.a) s' = .next t' ∧ t'.a = t.a ∧ t'.p = t.p ∧
      ((∀ b, o ≠ .immediate b) → ∃ ea, operandAddress o s = some ea ∧ t.a = s.mem.read ea)

/-- R145: an LDA of mode `m`, its operand fetched at `pc`, loads the byte at `EA(m)`, updates the flags on it, and then
advances `pc` by the mode's operand bytes, 1 or 2. -/
def Obligations.LdaCommonMeaning : Prop :=
  ∀ (i : Instr) (s : State), i.mnemonic = .lda → fetchOperand i.operand.mode s = i.operand →
    ∃ ea t, effectiveAddress i.operand.mode s = some ea ∧ exec i s = .next t ∧
      LoadsA (s.mem.read ea) (operandBytes i.operand.mode) s t ∧
      (operandBytes i.operand.mode = 1 ∨ operandBytes i.operand.mode = 2)

/-- R146. -/
def Obligations.LdaImmediateLoads : Prop :=
  (∀ b : Byte, encode (.ldaImmediate b) = [0xA9, b]) ∧
  (∀ (b : Byte) (s : State), ∃ t, exec (.ldaImmediate b) s = .next t ∧ LoadsA b 1 s t) ∧
  (∀ s : State, s.rs = .running → byteAt s.mem s.pc.toNat = 0xA9 →
    ∃ t, step s = .next t ∧ LoadsA (byteAt s.mem (s.pc.toNat + 1)) 2 s t)

/-- R147. -/
def Obligations.LdaZeroPageLoads : Prop :=
  (∀ b : Byte, encode (.ldaZeroPage b) = [0xA5, b]) ∧
  (∀ (b : Byte) (s : State), ∃ t, exec (.ldaZeroPage b) s = .next t ∧ LoadsA (byteAt s.mem b.toNat) 1 s t) ∧
  (∀ s : State, s.rs = .running → byteAt s.mem s.pc.toNat = 0xA5 →
    ∃ t, step s = .next t ∧ LoadsA (byteAt s.mem (byteAt s.mem (s.pc.toNat + 1)).toNat) 2 s t)

/-- R148: the index addition wraps inside the zero page. -/
def Obligations.LdaZeroPageXLoads : Prop :=
  (∀ b : Byte, encode (.ldaZeroPageX b) = [0xB5, b]) ∧
  (∀ (b : Byte) (s : State), ∃ t, exec (.ldaZeroPageX b) s = .next t ∧
    LoadsA (byteAt s.mem ((b.toNat + s.x.toNat) % 256)) 1 s t) ∧
  (∀ s : State, s.rs = .running → byteAt s.mem s.pc.toNat = 0xB5 →
    ∃ t, step s = .next t ∧
      LoadsA (byteAt s.mem (((byteAt s.mem (s.pc.toNat + 1)).toNat + s.x.toNat) % 256)) 2 s t)

/-- R149. -/
def Obligations.LdaAbsoluteLoads : Prop :=
  (∀ lo hi : Byte, encode (.ldaAbsolute (joinBytes hi lo)) = [0xAD, lo, hi]) ∧
  (∀ (w : Addr) (s : State), ∃ t, exec (.ldaAbsolute w) s = .next t ∧ LoadsA (byteAt s.mem w.toNat) 2 s t) ∧
  (∀ s : State, s.rs = .running → byteAt s.mem s.pc.toNat = 0xAD →
    ∃ t, step s = .next t ∧
      LoadsA (byteAt s.mem (wordAt s.mem (s.pc.toNat + 1) (s.pc.toNat + 2))) 3 s t)

/-- R150: the index addition is a 16-bit addition that wraps past the top. -/
def Obligations.LdaAbsoluteXLoads : Prop :=
  (∀ lo hi : Byte, encode (.ldaAbsoluteX (joinBytes hi lo)) = [0xBD, lo, hi]) ∧
  (∀ (w : Addr) (s : State), ∃ t, exec (.ldaAbsoluteX w) s = .next t ∧
    LoadsA (byteAt s.mem ((w.toNat + s.x.toNat) % 65536)) 2 s t) ∧
  (∀ s : State, s.rs = .running → byteAt s.mem s.pc.toNat = 0xBD →
    ∃ t, step s = .next t ∧
      LoadsA (byteAt s.mem ((wordAt s.mem (s.pc.toNat + 1) (s.pc.toNat + 2) + s.x.toNat) % 65536)) 3 s t)

/-- R151: as R150 with Y. -/
def Obligations.LdaAbsoluteYLoads : Prop :=
  (∀ lo hi : Byte, encode (.ldaAbsoluteY (joinBytes hi lo)) = [0xB9, lo, hi]) ∧
  (∀ (w : Addr) (s : State), ∃ t, exec (.ldaAbsoluteY w) s = .next t ∧
    LoadsA (byteAt s.mem ((w.toNat + s.y.toNat) % 65536)) 2 s t) ∧
  (∀ s : State, s.rs = .running → byteAt s.mem s.pc.toNat = 0xB9 →
    ∃ t, step s = .next t ∧
      LoadsA (byteAt s.mem ((wordAt s.mem (s.pc.toNat + 1) (s.pc.toNat + 2) + s.y.toNat) % 65536)) 3 s t)

/-- R152: X is added to the zero-page base before the pointer is fetched, and both pointer bytes come from the zero
page. -/
def Obligations.LdaIndirectXLoads : Prop :=
  (∀ b : Byte, encode (.ldaIndirectX b) = [0xA1, b]) ∧
  (∀ (b : Byte) (s : State), ∃ t, exec (.ldaIndirectX b) s = .next t ∧
    LoadsA (byteAt s.mem (wordAt s.mem ((b.toNat + s.x.toNat) % 256) ((b.toNat + s.x.toNat + 1) % 256))) 1 s t) ∧
  (∀ s : State, s.rs = .running → byteAt s.mem s.pc.toNat = 0xA1 →
    let base := (byteAt s.mem (s.pc.toNat + 1)).toNat
    ∃ t, step s = .next t ∧
      LoadsA (byteAt s.mem (wordAt s.mem ((base + s.x.toNat) % 256) ((base + s.x.toNat + 1) % 256))) 2 s t)

/-- R153: Y is added to the 16-bit pointer after it is fetched from the zero page. -/
def Obligations.LdaIndirectYLoads : Prop :=
  (∀ b : Byte, encode (.ldaIndirectY b) = [0xB1, b]) ∧
  (∀ (b : Byte) (s : State), ∃ t, exec (.ldaIndirectY b) s = .next t ∧
    LoadsA (byteAt s.mem ((wordAt s.mem b.toNat ((b.toNat + 1) % 256) + s.y.toNat) % 65536)) 1 s t) ∧
  (∀ s : State, s.rs = .running → byteAt s.mem s.pc.toNat = 0xB1 →
    let base := (byteAt s.mem (s.pc.toNat + 1)).toNat
    ∃ t, step s = .next t ∧
      LoadsA (byteAt s.mem ((wordAt s.mem base ((base + 1) % 256) + s.y.toNat) % 65536)) 2 s t)

/-! ## TAX, INX, BRK -/

/-- R160. -/
def Obligations.TaxCopiesAToX : Prop :=
  encode .tax = [0xAA] ∧
  (∀ s : State, ∃ t, exec .tax s = .next t ∧ LoadsX s.a 0 s t) ∧
  (∀ s : State, s.rs = .running → byteAt s.mem s.pc.toNat = 0xAA → ∃ t, step s = .next t ∧ LoadsX s.a 1 s t)

/-- R161: the increment wraps from 0xFF to 0x00. -/
def Obligations.InxIncrementsX : Prop :=
  encode .inx = [0xE8] ∧
  (∀ s : State, ∃ t, exec .inx s = .next t ∧ LoadsX (BitVec.ofNat 8 ((s.x.toNat + 1) % 256)) 0 s t) ∧
  (∀ s : State, s.rs = .running → byteAt s.mem s.pc.toNat = 0xE8 →
    ∃ t, step s = .next t ∧ LoadsX (BitVec.ofNat 8 ((s.x.toNat + 1) % 256)) 1 s t)

/-- R140: BRK halts; P, A, X, Y and memory are unchanged, and `pc` keeps the value the fetch gave it (R126: the advance
is made for every opcode byte, BRK's included). -/
def Obligations.BrkHalts : Prop :=
  encode .brk = [0x00] ∧
  (∀ s : State, ∃ t, exec .brk s = .next t ∧ HaltsAfter 0 s t) ∧
  (∀ s : State, s.rs = .running → byteAt s.mem s.pc.toNat = 0x00 → ∃ t, step s = .next t ∧ HaltsAfter 1 s t)

/-! ## Fatal conditions and the end of a run -/

/-- R171 and R173; the record (kind, opcode, address) is decision D5 and the value `Faulted` decision D2 (log entry 2):
each of the 245 other opcode bytes ends the run with `pc` one past it and nothing else changed. -/
def Obligations.UnimplementedOpcodeFaults : Prop :=
  ∀ s : State, s.rs = .running → byteAt s.mem s.pc.toNat ∉ implementedOpcodes →
    ∃ t, step s = .next t ∧ t.rs = .faulted .unimplementedOpcode (byteAt s.mem s.pc.toNat) s.pc ∧ t.rs ≠ .halted ∧
      t.pc.toNat = (s.pc.toNat + 1) % 65536 ∧ SameRegisters s t ∧ SameMemory s t

/-- R215, R141 (D17): in one step a running core halts exactly when the byte at `pc` is BRK's, fails (D2; log entry 2) exactly when
it is outside the table, and goes on otherwise. -/
def Obligations.StepEndsRunExactlyWhen : Prop :=
  ∀ s t : State, s.rs = .running → step s = .next t →
    (t.rs = .halted ↔ byteAt s.mem s.pc.toNat = 0x00) ∧
    ((∃ kind op fetchedAt, t.rs = .faulted kind op fetchedAt) ↔ byteAt s.mem s.pc.toNat ∉ implementedOpcodes) ∧
    (t.rs = .running ↔ byteAt s.mem s.pc.toNat ∈ implementedOpcodes ∧ byteAt s.mem s.pc.toNat ≠ 0x00)

/-- R215 (D17): a run that starts in a running state, as every run that began with `reset()` does, and ends halted ended
by executing a BRK byte, which stands just before the final `pc`; memory is as it was when the run began. (From a state
already halted no BRK is executed: log entry 15.) -/
def Obligations.RunCompletesOnlyThroughBrk : Prop :=
  ∀ s t : State, s.rs = .running → CompletesIn s t →
    ∃ k u, runFor k s = .next u ∧ u.rs = .running ∧ byteAt s.mem u.pc.toNat = 0x00 ∧ u.mem = s.mem ∧
      t = { u with pc := u.pc + 1, rs := .halted }

/-- R128: a run that has ended is ended for good: any larger bound on the steps gives the same state, so the end of a
run is unique. -/
def Obligations.RunEndIsUnique : Prop :=
  ∀ s t u : State, RunEndsIn s t → RunEndsIn s u → t = u

/-- R128, a sentence the spec marks as derived: while no byte of memory is BRK's or outside the table, the run never
leaves `Running`, whatever the number of steps. -/
def Obligations.RunWithoutStoppingByteNeverEnds : Prop :=
  ∀ s : State, s.rs = .running →
    (∀ c : Addr, s.mem.read c ∈ implementedOpcodes ∧ s.mem.read c ≠ 0x00) →
    (∀ fuel, ∃ t, runFor fuel s = .next t ∧ t.rs = .running ∧ t.mem = s.mem) ∧ ¬ ∃ t, RunEndsIn s t

/-! ## Memory -/

/-- R52, R53: a byte write stores its value, changes no other byte and no register, and a read returns what was last
written. -/
def Obligations.HostByteWriteThenRead : Prop :=
  ∀ (addr : Addr) (v : Byte) (s : State),
    hostRead addr (hostWrite addr v s) = v ∧
    (∀ c : Addr, c ≠ addr → hostRead c (hostWrite addr v s) = hostRead c s) ∧
    observe (hostWrite addr v s) = observe s

/-- R54, R55: words are little-endian, the second byte's address wraps at the top of memory, a word read after a word
write gives the word, and no other byte changes. -/
def Obligations.WordsAreLittleEndian : Prop :=
  ∀ (addr v : Addr) (s : State),
    (hostReadWord addr s).toNat = wordAt s.mem addr.toNat (addr.toNat + 1) ∧
    (byteAt (hostWriteWord addr v s).mem addr.toNat).toNat = v.toNat % 256 ∧
    (byteAt (hostWriteWord addr v s).mem (addr.toNat + 1)).toNat = v.toNat / 256 ∧
    hostReadWord addr (hostWriteWord addr v s) = v ∧
    (∀ c : Addr, c ≠ addr → c ≠ addr + 1 → hostRead c (hostWriteWord addr v s) = hostRead c s) ∧
    observe (hostWriteWord addr v s) = observe s

/-- The model's representation of memory (log entry 5): memories in canonical form that read alike at every address
are equal data. -/
def Obligations.CanonicalMemoriesAreExtensional : Prop :=
  ∀ m m' : Memory, m.wf = true → m'.wf = true → (∀ c : Addr, m.read c = m'.read c) → m = m'

/-! ## Reset, power-on and the host -/

/-- R200, R201: what reset leaves, with the reset-vector round trip; memory survives it, so a second reset, right away or
after any part of a run, restarts from the same state. (That reset is accepted in every run state is R203, decision
D6.) -/
def Obligations.ResetClearsAndLoadsVector : Prop :=
  (∀ s : State, let t := performReset s
    t.a = 0x00 ∧ t.x = 0x00 ∧ t.y = 0x00 ∧ t.p = 0x00 ∧
    t.pc.toNat = wordAt s.mem 0xFFFC 0xFFFD ∧ t.rs = .running ∧ SameMemory s t) ∧
  (∀ (s : State) (v : Addr), (performReset (hostWriteWord 0xFFFC v s)).pc = v) ∧
  (∀ (s t : State) (fuel : Nat), runFor fuel (performReset s) = .next t → performReset t = performReset s)

/-- R202 (the run state is decision D3, the memory contents D7 at its default; log entries 3, 10), R206: power-on, with
the default memory and with any other, the first reset, and the first step with no vector written. -/
def Obligations.PowerOnThenReset : Prop :=
  powerOn.a = 0x00 ∧ powerOn.x = 0x00 ∧ powerOn.y = 0x00 ∧ powerOn.p = 0x00 ∧ powerOn.pc = 0x0000 ∧
  powerOn.rs = .halted ∧ (∀ c : Addr, powerOn.mem.read c = 0x00) ∧ step powerOn = .next powerOn ∧
  (∀ m : Memory, observe (powerOnWith m) = observe powerOn ∧ (powerOnWith m).mem = m ∧
    step (powerOnWith m) = .next (powerOnWith m)) ∧
  performReset powerOn = State.reset ∧
  step State.reset = .next { State.reset with pc := 0x0001, rs := .halted }

/-- R204 (the refusal is decision D12; log entry 9): an image of at most 0x8000 bytes stands at the origin, but for the
two bytes of the vector, which hold the origin; every other byte and every register is as before; a longer image is
refused. -/
def Obligations.LoadProgramPlacesImage : Prop :=
  (∀ (bytes : List Byte) (s : State), bytes.length ≤ 0x8000 →
    ∃ t, loadProgram bytes s = .next t ∧ observe t = observe s ∧
      byteAt t.mem 0xFFFC = 0x00 ∧ byteAt t.mem 0xFFFD = 0x80 ∧
      (∀ (k : Nat) (hk : k < bytes.length), 0x8000 + k ≠ 0xFFFC → 0x8000 + k ≠ 0xFFFD →
        byteAt t.mem (0x8000 + k) = bytes[k]) ∧
      (∀ n : Nat, n < 65536 → (n < 0x8000 ∨ 0x8000 + bytes.length ≤ n) → n ≠ 0xFFFC → n ≠ 0xFFFD →
        byteAt t.mem n = byteAt s.mem n)) ∧
  (∀ (bytes : List Byte) (s : State), 0x8000 < bytes.length → loadProgram bytes s = .refused .imageTooLong)

/-- R133: `load_and_run` is load, reset, run, in that order: for an image that fits, a run from a state with the image
loaded, every register zero, and `pc` at the origin. -/
def Obligations.LoadAndRunStartsAtOrigin : Prop :=
  ∀ (bytes : List Byte) (s : State) (fuel : Nat), bytes.length ≤ 0x8000 →
    ∃ t u, loadProgram bytes s = .next t ∧ u = performReset t ∧ loadAndRunFor fuel bytes s = runFor fuel u ∧
      u.mem = t.mem ∧ observe u = { a := 0x00, x := 0x00, y := 0x00, p := 0x00, pc := 0x8000, rs := .running }

/-- R207, "What the host cannot do": apart from reset, step and run, no host operation changes a register or the run
state. -/
def Obligations.HostWritesNoRegister : Prop :=
  ∀ (s t : State),
    (∀ bytes, applyHostOp (.loadProgram bytes) s = .next t → observe t = observe s) ∧
    (∀ addr v, applyHostOp (.write addr v) s = .next t → observe t = observe s) ∧
    (∀ addr v, applyHostOp (.writeWord addr v) s = .next t → observe t = observe s)

/-- R70 (marked derived): no step and no run writes memory, whatever the state. -/
def Obligations.RunNeverWritesMemory : Prop :=
  ∀ (s t : State) (fuel : Nat), runFor fuel s = .next t → SameMemory s t

/-! ## Invariants -/

/-- The invariant of Safety.lean holds at power-on and right after the first reset (log entries 3, 4). -/
def Obligations.CoreInvAtPowerOnAndReset : Prop := CoreInv powerOn ∧ CoreInv State.reset

/-- R23, R31 (marked derived), R171: every step keeps the invariant: canonical memory, Y zero, P one of 0x00, 0x02,
0x80, and a fault record (D5; log entry 2) that names a byte outside the table just behind `pc`. -/
def Obligations.StepKeepsCoreInv : Prop := ∀ s t : State, CoreInv s → step s = .next t → CoreInv t

/-- R207 with R23, R31: every host operation keeps the invariant, so it holds of every state a host can bring about. -/
def Obligations.HostReachableStatesMeetCoreInv : Prop :=
  (∀ (op : HostOp) (s t : State), CoreInv s → applyHostOp op s = .next t → CoreInv t) ∧
  (∀ s : State, HostReachable s → CoreInv s)
end

