-- ==== Sys2Proof/Laws/Decode.lean ====
section
/-! SUPPORT. What the decoder can answer on the three bytes a step fetches (spec/30_encoding.md R84, R87): it agrees
with the opcode table, and the only rejection is the opcode's own. -/

namespace Sys2Proof

/-- The decoder and the opcode table agree wherever an instruction is read. -/
theorem descriptorOf_of_decode {op b c : Byte} {i : Instr} {rest : List Byte}
    (h : decode [op, b, c] = .ok (i, rest)) : descriptorOf op = some i.descriptor := by
  simp only [decode, decodeOp8, decodeOp16] at h
  repeat' split at h
  all_goals first
    | (cases h; subst_vars; rfl)
    | cases h

/-- The decoder rejects a fetched instruction only for an opcode byte that has no row, and names it. -/
theorem decode_error_cases {op b c : Byte} {e : DecodeError} (h : decode [op, b, c] = .error e) :
    e = .unimplementedOpcode op ∧ descriptorOf op = none := by
  simp only [decode, decodeOp8, decodeOp16] at h
  repeat' split at h
  all_goals first
    | (cases h; done)
    | (cases h
       refine ⟨rfl, ?_⟩
       simp_all [descriptorOf, opcodeTable, List.lookup, beq_eq_false_iff_ne.mpr])

end Sys2Proof
end

