-- ==== Sys2Proof/Laws/Memory.lean ====
section
/-! SUPPORT. Laws of memory (spec/20_memory.md): reading after a write, and that every memory operation keeps the
canonical form. -/

namespace Sys2Proof.Machine

/-! Entries. -/

theorem Memory.find_put_same (k : Nat) (v : Byte) (m : Memory) : Memory.find k (Memory.put k v m) = some v := by
  induction m with
  | nil => simp [Memory.put, Memory.find]
  | cons e m ih =>
    obtain ⟨j, u⟩ := e
    simp only [Memory.put]
    split
    · simp [Memory.find]
    · split
      · simp [Memory.find]
      · next h => simp [Memory.find, ih, Ne.symm h]

theorem Memory.find_put_other {j k : Nat} (h : j ≠ k) (v : Byte) (m : Memory) :
    Memory.find j (Memory.put k v m) = Memory.find j m := by
  induction m with
  | nil => simp [Memory.put, Memory.find, h.symm]
  | cons e m ih =>
    obtain ⟨i, u⟩ := e
    simp only [Memory.put]
    split
    · simp [Memory.find, h.symm]
    · split
      · next hk => subst hk; simp [Memory.find, h.symm]
      · simp [Memory.find, ih]

theorem Memory.find_forget_same (k : Nat) (m : Memory) : Memory.find k (Memory.forget k m) = none := by
  induction m with
  | nil => simp [Memory.forget, Memory.find]
  | cons e m ih =>
    simp only [Memory.forget]
    split
    · exact ih
    · next h => simp [Memory.find, h, ih]

theorem Memory.find_forget_other {j k : Nat} (h : j ≠ k) (m : Memory) :
    Memory.find j (Memory.forget k m) = Memory.find j m := by
  induction m with
  | nil => simp [Memory.forget, Memory.find]
  | cons e m ih =>
    simp only [Memory.forget]
    split
    · next he => simp [Memory.find, he, h.symm, ih]
    · simp [Memory.find, ih]

/-! Reading after a byte write (R52, R53). -/

theorem Memory.read_write_same (m : Memory) (a : Addr) (v : Byte) : (Memory.write m a v).read a = v := by
  simp only [Memory.write, Memory.read]
  split
  · next h => simp [Memory.find_forget_same, h]
  · simp [Memory.find_put_same]

theorem Memory.read_write_other {c a : Addr} (h : c ≠ a) (m : Memory) (v : Byte) :
    (Memory.write m a v).read c = m.read c := by
  have hn : c.toNat ≠ a.toNat := fun e => h (BitVec.eq_of_toNat_eq e)
  simp only [Memory.write, Memory.read]
  split
  · rw [Memory.find_forget_other hn]
  · rw [Memory.find_put_other hn]

/-! The canonical form. -/

theorem Memory.wfFrom_mono {lo lo' : Nat} (h : lo' ≤ lo) {m : Memory} (hm : Memory.wfFrom lo m = true) :
    Memory.wfFrom lo' m = true := by
  cases m with
  | nil => rfl
  | cons e m =>
    simp only [Memory.wfFrom, Bool.and_eq_true, decide_eq_true_eq] at hm ⊢
    exact ⟨⟨⟨Nat.le_trans h hm.1.1.1, hm.1.1.2⟩, hm.1.2⟩, hm.2⟩

theorem Memory.wfFrom_forget (k : Nat) {lo : Nat} {m : Memory} (hm : Memory.wfFrom lo m = true) :
    Memory.wfFrom lo (Memory.forget k m) = true := by
  induction m generalizing lo with
  | nil => rfl
  | cons e m ih =>
    simp only [Memory.wfFrom, Bool.and_eq_true, decide_eq_true_eq] at hm
    simp only [Memory.forget]
    split
    · exact ih (Memory.wfFrom_mono (Nat.le_succ_of_le hm.1.1.1) hm.2)
    · simp only [Memory.wfFrom, Bool.and_eq_true, decide_eq_true_eq]
      exact ⟨hm.1, ih hm.2⟩

theorem Memory.wfFrom_put {k lo : Nat} {v : Byte} {m : Memory} (hlo : lo ≤ k) (hk : k < Config.memSize)
    (hv : (v != Config.memInit (BitVec.ofNat 16 k)) = true) (hm : Memory.wfFrom lo m = true) :
    Memory.wfFrom lo (Memory.put k v m) = true := by
  induction m generalizing lo with
  | nil => simp only [Memory.put, Memory.wfFrom, Bool.and_eq_true, decide_eq_true_eq]; exact ⟨⟨⟨hlo, hk⟩, hv⟩, trivial⟩
  | cons e m ih =>
    obtain ⟨j, u⟩ := e
    simp only [Memory.wfFrom, Bool.and_eq_true, decide_eq_true_eq] at hm
    simp only [Memory.put]
    split
    · next hkj =>
      simp only [Memory.wfFrom, Bool.and_eq_true, decide_eq_true_eq]
      exact ⟨⟨⟨hlo, hk⟩, hv⟩, ⟨⟨hkj, hm.1.1.2⟩, hm.1.2⟩, hm.2⟩
    · next hkj =>
      split
      · next he =>
        subst he
        simp only [Memory.wfFrom, Bool.and_eq_true, decide_eq_true_eq]
        exact ⟨⟨⟨hlo, hk⟩, hv⟩, hm.2⟩
      · next he =>
        simp only [Memory.wfFrom, Bool.and_eq_true, decide_eq_true_eq]
        exact ⟨hm.1, ih (by omega) hm.2⟩

theorem Memory.wf_write {m : Memory} (a : Addr) (v : Byte) (hm : m.wf = true) : (m.write a v).wf = true := by
  simp only [Memory.write]
  split
  · exact Memory.wfFrom_forget _ hm
  · next h =>
    have ha : BitVec.ofNat 16 a.toNat = a := by simp
    exact Memory.wfFrom_put (Nat.zero_le _) a.isLt (by rw [ha]; exact bne_iff_ne.mpr h) hm

theorem Memory.wf_writeWord {m : Memory} (a v : Addr) (hm : m.wf = true) : (m.writeWord a v).wf = true :=
  Memory.wf_write _ _ (Memory.wf_write _ _ hm)

theorem Memory.wf_writeBytes {m : Memory} (a : Addr) (bs : List Byte) (hm : m.wf = true) :
    (m.writeBytes a bs).wf = true := by
  induction bs generalizing m a with
  | nil => exact hm
  | cons b bs ih => exact ih _ (Memory.wf_write _ _ hm)

end Sys2Proof.Machine
end

