-- ==== Sys2Proof/Laws/State.lean ====
section
/-! SUPPORT. One lemma per field and update of the state: what each named operation of Machine/Ops.lean and
Machine/HostOps.lean leaves in each field. -/

namespace Sys2Proof.Machine

section AdvancePc
variable (n : Nat) (s : State)
@[simp] theorem advancePc_a : (advancePc n s).a = s.a := rfl
@[simp] theorem advancePc_x : (advancePc n s).x = s.x := rfl
@[simp] theorem advancePc_y : (advancePc n s).y = s.y := rfl
@[simp] theorem advancePc_p : (advancePc n s).p = s.p := rfl
@[simp] theorem advancePc_pc : (advancePc n s).pc = s.pc + BitVec.ofNat 16 n := rfl
@[simp] theorem advancePc_rs : (advancePc n s).rs = s.rs := rfl
@[simp] theorem advancePc_mem : (advancePc n s).mem = s.mem := rfl
end AdvancePc

section WriteA
variable (v : Byte) (s : State)
@[simp] theorem writeA_a : (writeA v s).a = v := rfl
@[simp] theorem writeA_x : (writeA v s).x = s.x := rfl
@[simp] theorem writeA_y : (writeA v s).y = s.y := rfl
@[simp] theorem writeA_p : (writeA v s).p = updateFlags s.p v := rfl
@[simp] theorem writeA_pc : (writeA v s).pc = s.pc := rfl
@[simp] theorem writeA_rs : (writeA v s).rs = s.rs := rfl
@[simp] theorem writeA_mem : (writeA v s).mem = s.mem := rfl
end WriteA

section WriteX
variable (v : Byte) (s : State)
@[simp] theorem writeX_a : (writeX v s).a = s.a := rfl
@[simp] theorem writeX_x : (writeX v s).x = v := rfl
@[simp] theorem writeX_y : (writeX v s).y = s.y := rfl
@[simp] theorem writeX_p : (writeX v s).p = updateFlags s.p v := rfl
@[simp] theorem writeX_pc : (writeX v s).pc = s.pc := rfl
@[simp] theorem writeX_rs : (writeX v s).rs = s.rs := rfl
@[simp] theorem writeX_mem : (writeX v s).mem = s.mem := rfl
end WriteX

section Halt
variable (s : State)
@[simp] theorem halt_a : (halt s).a = s.a := rfl
@[simp] theorem halt_x : (halt s).x = s.x := rfl
@[simp] theorem halt_y : (halt s).y = s.y := rfl
@[simp] theorem halt_p : (halt s).p = s.p := rfl
@[simp] theorem halt_pc : (halt s).pc = s.pc := rfl
@[simp] theorem halt_rs : (halt s).rs = .halted := rfl
@[simp] theorem halt_mem : (halt s).mem = s.mem := rfl
end Halt

section RaiseFatal
variable (kind : FatalKind) (op : Byte) (a : Addr) (s : State)
@[simp] theorem raiseFatal_a : (raiseFatal kind op a s).a = s.a := rfl
@[simp] theorem raiseFatal_x : (raiseFatal kind op a s).x = s.x := rfl
@[simp] theorem raiseFatal_y : (raiseFatal kind op a s).y = s.y := rfl
@[simp] theorem raiseFatal_p : (raiseFatal kind op a s).p = s.p := rfl
@[simp] theorem raiseFatal_pc : (raiseFatal kind op a s).pc = s.pc := rfl
@[simp] theorem raiseFatal_rs : (raiseFatal kind op a s).rs = .faulted kind op a := rfl
@[simp] theorem raiseFatal_mem : (raiseFatal kind op a s).mem = s.mem := rfl
end RaiseFatal

section PerformReset
variable (s : State)
@[simp] theorem performReset_a : (performReset s).a = 0x00 := rfl
@[simp] theorem performReset_x : (performReset s).x = 0x00 := rfl
@[simp] theorem performReset_y : (performReset s).y = 0x00 := rfl
@[simp] theorem performReset_p : (performReset s).p = 0x00 := rfl
@[simp] theorem performReset_pc : (performReset s).pc = s.mem.readWord Config.resetVector := rfl
@[simp] theorem performReset_rs : (performReset s).rs = .running := rfl
@[simp] theorem performReset_mem : (performReset s).mem = s.mem := rfl
end PerformReset

section HostWrite
variable (addr : Addr) (v : Byte) (s : State)
@[simp] theorem hostWrite_a : (hostWrite addr v s).a = s.a := rfl
@[simp] theorem hostWrite_x : (hostWrite addr v s).x = s.x := rfl
@[simp] theorem hostWrite_y : (hostWrite addr v s).y = s.y := rfl
@[simp] theorem hostWrite_p : (hostWrite addr v s).p = s.p := rfl
@[simp] theorem hostWrite_pc : (hostWrite addr v s).pc = s.pc := rfl
@[simp] theorem hostWrite_rs : (hostWrite addr v s).rs = s.rs := rfl
@[simp] theorem hostWrite_mem : (hostWrite addr v s).mem = s.mem.write addr v := rfl
end HostWrite

section HostWriteWord
variable (addr v : Addr) (s : State)
@[simp] theorem hostWriteWord_a : (hostWriteWord addr v s).a = s.a := rfl
@[simp] theorem hostWriteWord_x : (hostWriteWord addr v s).x = s.x := rfl
@[simp] theorem hostWriteWord_y : (hostWriteWord addr v s).y = s.y := rfl
@[simp] theorem hostWriteWord_p : (hostWriteWord addr v s).p = s.p := rfl
@[simp] theorem hostWriteWord_pc : (hostWriteWord addr v s).pc = s.pc := rfl
@[simp] theorem hostWriteWord_rs : (hostWriteWord addr v s).rs = s.rs := rfl
@[simp] theorem hostWriteWord_mem : (hostWriteWord addr v s).mem = s.mem.writeWord addr v := rfl
end HostWriteWord

end Sys2Proof.Machine
end

