-- ==== Sys2Proof/Laws/Operations.lean ====
section
/-! SUPPORT. One lemma per shared operation, saying once everything it can do: the flag updater, the resolver's datum,
the load, the dispatch, the step and reset. Later proofs cite these and do not unfold the operation. -/

namespace Sys2Proof.Machine

/-- The flag updater bit by bit (R120, R122). -/
theorem updateFlags_getLsbD (p v : Byte) (k : Nat) :
    (updateFlags p v).getLsbD k =
      if k = 1 then decide (v = 0) else if k = 7 then v.getLsbD 7 else p.getLsbD k := by
  by_cases hk : k < 8
  · have : k = 0 ∨ k = 1 ∨ k = 2 ∨ k = 3 ∨ k = 4 ∨ k = 5 ∨ k = 6 ∨ k = 7 := by omega
    by_cases hv : v = 0#8 <;> rcases this with rfl | rfl | rfl | rfl | rfl | rfl | rfl | rfl <;>
      simp [updateFlags, hv]
  · have h1 : k ≠ 1 := by omega
    have h7 : k ≠ 7 := by omega
    rw [BitVec.getLsbD_of_ge (updateFlags p v) k (by omega), BitVec.getLsbD_of_ge p k (by omega)]
    simp [h1, h7]

/-- Every operand but the one of NoneAddressing has an effective address (R101 to R110). -/
theorem operandAddress_eq_none_iff (o : Operand) (s : State) :
    operandAddress o s = none ↔ o = .noneAddressing := by
  cases o <;> simp [operandAddress]

/-- Every operand but the one of NoneAddressing supplies a datum. -/
theorem operandDatum_eq_none_iff (o : Operand) (s : State) :
    operandDatum o s = none ↔ o = .noneAddressing := by
  cases o <;> simp [operandDatum, operandAddress]

/-- What a load does: with a datum it is the load of R145, without one the fatal condition of R110. -/
theorem loadAccumulator_cases {o : Operand} {s t : State} (h : loadAccumulator o s = .next t) :
    (∃ v, operandDatum o s = some v ∧ t = advancePc (operandBytes o.mode) (writeA v s)) ∨
    (o = .noneAddressing ∧
      t = raiseFatal .invalidAddressingMode (s.mem.read (s.pc - 1)) (s.pc - 1) s) := by
  cases hd : operandDatum o s with
  | some v => simp only [loadAccumulator, hd, Host.Outcome.next.injEq] at h; exact .inl ⟨v, rfl, h.symm⟩
  | none =>
    simp only [loadAccumulator, hd, Host.Outcome.next.injEq] at h
    exact .inr ⟨(operandDatum_eq_none_iff o s).mp hd, h.symm⟩

/-- An operand with a datum loads it. -/
theorem loadAccumulator_of_datum {o : Operand} {s : State} {v : Byte} (h : operandDatum o s = some v) :
    loadAccumulator o s = .next (advancePc (operandBytes o.mode) (writeA v s)) := by
  simp only [loadAccumulator, h]

/-- The LDA arms are loads of the instruction's operand. -/
theorem exec_lda {i : Instr} (h : i.mnemonic = .lda) (s : State) : exec i s = loadAccumulator i.operand s := by
  cases i <;> first | rfl | (simp [Instr.mnemonic] at h)

/-- An LDA instruction's operand is never the one of NoneAddressing (R172). -/
theorem operand_ne_none_of_lda {i : Instr} (h : i.mnemonic = .lda) : i.operand ≠ .noneAddressing := by
  cases i <;> first | (simp [Instr.mnemonic] at h; done) | simp [Instr.operand]

/-- What the dispatched instruction does, in the next state `exec` answers. -/
theorem exec_cases {i : Instr} {s t : State} (h : exec i s = .next t) :
    (i = .brk ∧ t = halt s) ∨ (i = .tax ∧ t = writeX s.a s) ∨ (i = .inx ∧ t = writeX (s.x + 1) s) ∨
    (i.mnemonic = .lda ∧ ∃ v, operandDatum i.operand s = some v ∧
      t = advancePc (operandBytes i.operand.mode) (writeA v s)) := by
  by_cases hl : i.mnemonic = .lda
  · rw [exec_lda hl] at h
    rcases loadAccumulator_cases h with hv | ⟨hn, -⟩
    · exact .inr (.inr (.inr ⟨hl, hv⟩))
    · exact absurd hn (operand_ne_none_of_lda hl)
  · cases i <;> first
      | (simp [Instr.mnemonic] at hl; done)
      | (simp only [exec, execBrk, execTax, execInx, Host.Outcome.next.injEq] at h; subst h; simp)

/-- Outside `Running` a step leaves the state as it is (R129). -/
theorem step_of_not_running {s : State} (h : s.rs ≠ .running) : step s = .next s := by simp only [step, h, if_false]

/-- A running step whose bytes decode dispatches the instruction with `pc` past the opcode byte (R125, R126). -/
theorem step_of_decode {s : State} {i : Instr} {rest : List Byte} (hr : s.rs = .running)
    (hd : decode (fetchBytes s.mem s.pc) = .ok (i, rest)) : step s = exec i (advancePc 1 s) := by
  simp only [step, hr, if_true, hd]

/-- A running step whose bytes do not decode raises the condition of R171. -/
theorem step_of_error {s : State} {e : DecodeError} (hr : s.rs = .running)
    (hd : decode (fetchBytes s.mem s.pc) = .error e) :
    step s = .next (raiseFatal .unimplementedOpcode (s.mem.read s.pc) s.pc (advancePc 1 s)) := by
  simp only [step, hr, if_true, hd]

/-- The operand the decoder read is the one the resolver fetches with `pc` at the first operand byte (R83, R100). -/
theorem operand_of_decode {s : State} {i : Instr} {rest : List Byte}
    (h : decode (fetchBytes s.mem s.pc) = .ok (i, rest)) :
    i.operand = fetchOperand i.operand.mode (advancePc 1 s) := by
  simp only [fetchBytes] at h
  generalize s.mem.read s.pc = op at h
  generalize hb : s.mem.read (s.pc + 1) = b at h
  generalize hc : s.mem.read (s.pc + 2) = c at h
  simp only [decode, decodeOp8, decodeOp16] at h
  repeat' split at h
  all_goals first
    | (cases h
       subst hb hc
       simp [Instr.operand, Operand.mode, fetchOperand, Memory.readWord, BitVec.add_assoc])
    | cases h

/-- A fetched operand's datum is the byte at the mode's effective address, for Immediate too (R83, R101). -/
theorem operandDatum_fetchOperand (m : Mode) (s : State) :
    operandDatum (fetchOperand m s) s = (effectiveAddress m s).map s.mem.read := by
  cases m <;> rfl

@[simp] theorem fetchOperand_mode (m : Mode) (s : State) : (fetchOperand m s).mode = m := by cases m <;> rfl

/-- What one step does, in the next state it answers: nothing outside `Running`; the decoded instruction; or the fatal
condition of R171. -/
theorem step_cases {s t : State} (h : step s = .next t) :
    (s.rs ≠ .running ∧ t = s) ∨
    (s.rs = .running ∧ ∃ i rest, decode (fetchBytes s.mem s.pc) = .ok (i, rest) ∧ exec i (advancePc 1 s) = .next t) ∨
    (s.rs = .running ∧ ∃ e, decode (fetchBytes s.mem s.pc) = .error e ∧
      t = raiseFatal .unimplementedOpcode (s.mem.read s.pc) s.pc (advancePc 1 s)) := by
  by_cases hr : s.rs = .running
  · simp only [step, hr, if_true] at h
    cases hd : decode (fetchBytes s.mem s.pc) with
    | ok r => rw [hd] at h; exact .inr (.inl ⟨hr, r.1, r.2, rfl, h⟩)
    | error e =>
      rw [hd] at h
      simp only [Host.Outcome.next.injEq] at h
      exact .inr (.inr ⟨hr, e, rfl, h.symm⟩)
  · simp only [step, hr, if_false, Host.Outcome.next.injEq] at h
    exact .inl ⟨hr, h.symm⟩

/-- What the host's load does, in the next state it answers (R204). -/
theorem loadProgram_cases {bytes : List Byte} {s t : State} (h : loadProgram bytes s = .next t) :
    bytes.length ≤ Config.maxImage ∧
    t = { s with mem := (s.mem.writeBytes Config.origin bytes).writeWord Config.resetVector Config.origin } := by
  by_cases hl : bytes.length ≤ Config.maxImage
  · simp only [loadProgram, hl, if_true, Host.Outcome.next.injEq] at h; exact ⟨hl, h.symm⟩
  · simp [loadProgram, hl] at h

end Sys2Proof.Machine

namespace Sys2Proof.Laws

open Sys2Proof.Machine

/-- The state after reset is power-on followed by `reset()` (R202, R200). -/
theorem reset_eq_performReset_powerOn : State.reset = performReset powerOn := by decide

/-- Reset memory is in canonical form. -/
theorem reset_mem_wf : State.reset.mem.wf = true := rfl

end Sys2Proof.Laws
end

