-- ==== Sys2Proof/Laws/PerInstr.lean ====
section
/-! SUPPORT. Per-instruction families (LAWS.json): every instruction is well formed, and its encoding begins with an
opcode byte of the table and has the descriptor's length. -/

namespace Sys2Proof.Laws

/-- R88: no operand value makes an instruction ill-formed. -/
def WellFormedness.Statement (i : Instr) : Prop := i.wf = true

theorem WellFormedness.brk : WellFormedness.Statement .brk := rfl
theorem WellFormedness.ldaIndirectX (b : Byte) : WellFormedness.Statement (.ldaIndirectX b) := rfl
theorem WellFormedness.ldaZeroPage (b : Byte) : WellFormedness.Statement (.ldaZeroPage b) := rfl
theorem WellFormedness.ldaImmediate (b : Byte) : WellFormedness.Statement (.ldaImmediate b) := rfl
theorem WellFormedness.tax : WellFormedness.Statement .tax := rfl
theorem WellFormedness.ldaAbsolute (w : Addr) : WellFormedness.Statement (.ldaAbsolute w) := rfl
theorem WellFormedness.ldaIndirectY (b : Byte) : WellFormedness.Statement (.ldaIndirectY b) := rfl
theorem WellFormedness.ldaZeroPageX (b : Byte) : WellFormedness.Statement (.ldaZeroPageX b) := rfl
theorem WellFormedness.ldaAbsoluteY (w : Addr) : WellFormedness.Statement (.ldaAbsoluteY w) := rfl
theorem WellFormedness.ldaAbsoluteX (w : Addr) : WellFormedness.Statement (.ldaAbsoluteX w) := rfl
theorem WellFormedness.inx : WellFormedness.Statement .inx := rfl

/-- R82, R84: the encoding's first byte selects the instruction's descriptor, whose length is the encoding's. -/
def EncodingFitsTable.Statement (i : Instr) : Prop :=
  ∃ op operands, encode i = op :: operands ∧ descriptorOf op = some i.descriptor ∧
    (encode i).length = i.descriptor.length

theorem EncodingFitsTable.brk : EncodingFitsTable.Statement .brk := ⟨_, _, rfl, rfl, rfl⟩
theorem EncodingFitsTable.ldaIndirectX (b : Byte) : EncodingFitsTable.Statement (.ldaIndirectX b) := ⟨_, _, rfl, rfl, rfl⟩
theorem EncodingFitsTable.ldaZeroPage (b : Byte) : EncodingFitsTable.Statement (.ldaZeroPage b) := ⟨_, _, rfl, rfl, rfl⟩
theorem EncodingFitsTable.ldaImmediate (b : Byte) : EncodingFitsTable.Statement (.ldaImmediate b) := ⟨_, _, rfl, rfl, rfl⟩
theorem EncodingFitsTable.tax : EncodingFitsTable.Statement .tax := ⟨_, _, rfl, rfl, rfl⟩
theorem EncodingFitsTable.ldaAbsolute (w : Addr) : EncodingFitsTable.Statement (.ldaAbsolute w) := ⟨_, _, rfl, rfl, rfl⟩
theorem EncodingFitsTable.ldaIndirectY (b : Byte) : EncodingFitsTable.Statement (.ldaIndirectY b) := ⟨_, _, rfl, rfl, rfl⟩
theorem EncodingFitsTable.ldaZeroPageX (b : Byte) : EncodingFitsTable.Statement (.ldaZeroPageX b) := ⟨_, _, rfl, rfl, rfl⟩
theorem EncodingFitsTable.ldaAbsoluteY (w : Addr) : EncodingFitsTable.Statement (.ldaAbsoluteY w) := ⟨_, _, rfl, rfl, rfl⟩
theorem EncodingFitsTable.ldaAbsoluteX (w : Addr) : EncodingFitsTable.Statement (.ldaAbsoluteX w) := ⟨_, _, rfl, rfl, rfl⟩
theorem EncodingFitsTable.inx : EncodingFitsTable.Statement .inx := ⟨_, _, rfl, rfl, rfl⟩

end Sys2Proof.Laws
end

