-- ==== Sys2Proof/Laws/Vocabulary.lean ====
section
/-! SUPPORT. The vocabulary of the statements in terms of the machine's own operations: numeric addresses and words. -/

namespace Sys2Proof.Safety

open Sys2Proof.Machine

theorem byteAt_toNat (m : Memory) (a : Addr) : byteAt m a.toNat = m.read a := by simp [byteAt]

theorem byteAt_toNat_add (m : Memory) (a : Addr) (k : Nat) :
    byteAt m (a.toNat + k) = m.read (a + BitVec.ofNat 16 k) := by
  simp [byteAt, BitVec.ofNat_add]

theorem byteAt_mod (m : Memory) (n : Nat) : byteAt m (n % 65536) = byteAt m n := by
  have h : BitVec.ofNat 16 (n % 65536) = BitVec.ofNat 16 n := by
    apply BitVec.eq_of_toNat_eq; simp
  simp [byteAt, h]

theorem zext16_eq_ofNat (b : Byte) : zext16 b = BitVec.ofNat 16 b.toNat := by
  apply BitVec.eq_of_toNat_eq
  simp [zext16]

theorem zext16_add (b c : Byte) : zext16 (b + c) = BitVec.ofNat 16 ((b.toNat + c.toNat) % 256) := by
  rw [zext16_eq_ofNat, BitVec.toNat_add]

theorem joinBytes_toNat (hi lo : Byte) : (joinBytes hi lo).toNat = hi.toNat * 256 + lo.toNat := by
  have h := lo.isLt
  simp only [joinBytes, BitVec.toNat_append]
  rw [← Nat.shiftLeft_add_eq_or_of_lt h, Nat.shiftLeft_eq]

theorem readWord_toNat (m : Memory) (a : Addr) : (m.readWord a).toNat = wordAt m a.toNat (a.toNat + 1) := by
  rw [wordAt, byteAt_toNat_add, byteAt_toNat]
  exact joinBytes_toNat _ _

theorem readZeroPagePointer_toNat (m : Memory) (ptr : Byte) :
    (m.readZeroPagePointer ptr).toNat = wordAt m ptr.toNat ((ptr.toNat + 1) % 256) := by
  simp only [Memory.readZeroPagePointer, joinBytes_toNat, wordAt, byteAt, zext16_eq_ofNat]
  rfl

end Sys2Proof.Safety
end

