-- ==== Sys2Proof/Tests/Slice0.lean ====
section
/-! SUPPORT. Tests of the model. Expected results come from the spec: the encodings of spec/30_encoding.md R84, and the
vectors of spec/95_test_vectors.md, named in each test's comment. Then one witness for each statement that has
hypotheses. -/

namespace Sys2Proof.Tests

open Sys2Proof.Machine Sys2Proof.Safety

/-- Memory holding the given blocks of consecutive bytes, every other byte at its power-on value. -/
def blocks (bs : List (Addr × List Byte)) : Memory := bs.foldl (fun m b => m.writeBytes b.1 b.2) []

/-- A running state with every register zero. -/
def at' (pc : Addr) (bs : List (Addr × List Byte)) : State := { State.reset with pc := pc, mem := blocks bs }

/-- What the host observes after one step. -/
def after (s : State) : Option Observation :=
  match step s with
  | .next t => some (observe t)
  | .fault _ => none
  | .refused _ => none

/-- An observation of a running core. -/
def obs (a x y p : Byte) (pc : Addr) : Option Observation := some ⟨a, x, y, p, pc, .running⟩

/-! ## WellFormed: each check refuses an ill-formed descriptor -/

theorem test_wf_lda_without_mode : Descriptor.modeFits ⟨.lda, .noneAddressing, 1⟩ = false := by decide
theorem test_wf_tax_with_mode : Descriptor.modeFits ⟨.tax, .immediate, 2⟩ = false := by decide
theorem test_wf_zeroPageY_selected : Descriptor.modeSelected ⟨.lda, .zeroPageY, 2⟩ = false := by decide
theorem test_wf_wrong_length : Descriptor.lengthFits ⟨.lda, .absolute, 2⟩ = false := by decide
theorem test_wf_refuses_each :
    Descriptor.wf ⟨.lda, .noneAddressing, 1⟩ = false ∧ Descriptor.wf ⟨.lda, .zeroPageY, 2⟩ = false ∧
      Descriptor.wf ⟨.lda, .absolute, 2⟩ = false ∧ Descriptor.wf ⟨.lda, .absolute, 3⟩ = true := by decide

/-! ## Decoding: words written out from R81 and R84 (the examples of R89) -/

theorem test_decode_brk : decode [0b00000000] = .ok (.brk, []) := by decide
theorem test_decode_ldaIndirectX : decode [0b10100001, 0x20] = .ok (.ldaIndirectX 0x20, []) := by decide
theorem test_decode_ldaZeroPage : decode [0b10100101, 0x10] = .ok (.ldaZeroPage 0x10, []) := by decide
theorem test_decode_ldaImmediate : decode [0b10101001, 0x05] = .ok (.ldaImmediate 0x05, []) := by decide
theorem test_decode_tax : decode [0b10101010] = .ok (.tax, []) := by decide
theorem test_decode_ldaAbsolute : decode [0b10101101, 0x34, 0x12] = .ok (.ldaAbsolute 0x1234, []) := by decide
theorem test_decode_ldaIndirectY : decode [0b10110001, 0x20] = .ok (.ldaIndirectY 0x20, []) := by decide
theorem test_decode_ldaZeroPageX : decode [0b10110101, 0x10] = .ok (.ldaZeroPageX 0x10, []) := by decide
theorem test_decode_ldaAbsoluteY : decode [0b10111001, 0x34, 0x12] = .ok (.ldaAbsoluteY 0x1234, []) := by decide
theorem test_decode_ldaAbsoluteX : decode [0b10111101, 0x34, 0x12] = .ok (.ldaAbsoluteX 0x1234, []) := by decide
theorem test_decode_inx : decode [0b11101000] = .ok (.inx, []) := by decide

/-- R87: 0xEA, 0x85 and 0x4C are named there; 0x01 is BRK's neighbour. -/
theorem test_decode_rejects :
    decode [0xEA] = .error (.unimplementedOpcode 0xEA) ∧ decode [0x85, 0x10] = .error (.unimplementedOpcode 0x85) ∧
      decode [0x4C, 0, 0] = .error (.unimplementedOpcode 0x4C) ∧ decode [0x01] = .error (.unimplementedOpcode 0x01) ∧
      decode [] = .error .noOpcode ∧ decode [0xAD, 0x34] = .error (.truncated 0xAD) := by decide

/-- The numbering of spec/opcode_table.json: the opcode byte in bits 7:0, `lo` in 15:8, `hi` in 23:16. -/
theorem test_decodeTableWord :
    decodeTableWord 24 0x1234AD = some (.ldaAbsolute 0x1234) ∧ decodeTableWord 16 0x05A9 = some (.ldaImmediate 0x05) ∧
      decodeTableWord 8 0xFFE8 = some .inx ∧ decodeTableWord 8 0xEA = none := by decide

theorem test_withFetchWord : after (State.reset.withFetchWord 16 0x80A9) = obs 0x80 0 0 0x80 0x0002 := by decide

/-! ## One step: vectors of spec/95_test_vectors.md -/

/-- V-LDA-IMM-2. -/
theorem test_ldaImmediate_operand_wraps :
    after (at' 0xFFFF [(0xFFFF, [0xA9, 0x00])]) = obs 0x00 0 0 0x02 0x0001 := by decide
/-- V-LDA-IMM-3. -/
theorem test_ldaImmediate_pc_wraps :
    after { at' 0xFFFE [(0xFFFE, [0xA9, 0x01])] with p := 0x80 } = obs 0x01 0 0 0x00 0x0000 := by decide
/-- V-LDA-ZP-1. -/
theorem test_ldaZeroPage_top :
    after (at' 0x8000 [(0x8000, [0xA5, 0xFF]), (0x00FF, [0x7F])]) = obs 0x7F 0 0 0x00 0x8002 := by decide
/-- V-LDA-ZPX-1. -/
theorem test_ldaZeroPageX_indexed :
    after { at' 0x8000 [(0x8000, [0xB5, 0x10]), (0x0014, [0x80])] with x := 0x04 } = obs 0x80 0x04 0 0x80 0x8002 := by
  decide
/-- V-LDA-ZPX-2. -/
theorem test_ldaZeroPageX_wraps_in_page :
    after { at' 0x8000 [(0x8000, [0xB5, 0xFE]), (0x0001, [0x11]), (0x0101, [0x77])] with x := 0x03 }
      = obs 0x11 0x03 0 0x00 0x8002 := by decide
/-- V-LDA-ABS-1. -/
theorem test_ldaAbsolute_zero :
    after { at' 0x8000 [(0x8000, [0xAD, 0x34, 0x12])] with a := 0x55 } = obs 0x00 0 0 0x02 0x8003 := by decide
/-- V-LDA-ABS-2. -/
theorem test_ldaAbsolute_operand_straddles :
    after (at' 0xFFFE [(0xFFFE, [0xAD, 0x34, 0x12]), (0x1234, [0x99])]) = obs 0x99 0 0 0x80 0x0001 := by decide
/-- V-LDA-ABSX-1. -/
theorem test_ldaAbsoluteX_carries :
    after { at' 0x8000 [(0x8000, [0xBD, 0xFF, 0x01]), (0x0201, [0x80])] with x := 0x02 }
      = obs 0x80 0x02 0 0x80 0x8003 := by decide
/-- V-LDA-ABSX-2. -/
theorem test_ldaAbsoluteX_wraps :
    after { at' 0x8000 [(0x8000, [0xBD, 0xFF, 0xFF]), (0x0001, [0x42])] with x := 0x02 }
      = obs 0x42 0x02 0 0x00 0x8003 := by decide
/-- V-LDA-ABSY-1. -/
theorem test_ldaAbsoluteY_indexed :
    after { at' 0x8000 [(0x8000, [0xB9, 0x34, 0x12]), (0x1244, [0x7F])] with y := 0x10 }
      = obs 0x7F 0 0x10 0x00 0x8003 := by decide
/-- V-LDA-ABSY-2. -/
theorem test_ldaAbsoluteY_wraps :
    after { at' 0x8000 [(0x8000, [0xB9, 0x01, 0xFF]), (0x0000, [0x33])] with y := 0xFF }
      = obs 0x33 0 0xFF 0x00 0x8003 := by decide
/-- V-LDA-INDX-2. -/
theorem test_ldaIndirectX_pointer_wraps :
    after { at' 0x8000 [(0x8000, [0xA1, 0xF0]), (0x00FF, [0x34]), (0x0000, [0x12]), (0x0100, [0x56]),
      (0x1234, [0xAB]), (0x5634, [0xCD])] with x := 0x0F } = obs 0xAB 0x0F 0 0x80 0x8002 := by decide
/-- V-LDA-INDX-3. -/
theorem test_ldaIndirectX_base_wraps :
    after { at' 0x8000 [(0x8000, [0xA1, 0xFF]), (0x0001, [0x00, 0x40]), (0x4000, [0x01])] with x := 0x02 }
      = obs 0x01 0x02 0 0x00 0x8002 := by decide
/-- V-LDA-INDY-1. -/
theorem test_ldaIndirectY_adds_after_fetch :
    after { at' 0x8000 [(0x8000, [0xB1, 0x20]), (0x0020, [0xF0, 0x12]), (0x1310, [0xFF])] with y := 0x20 }
      = obs 0xFF 0 0x20 0x80 0x8002 := by decide
/-- V-LDA-INDY-2. -/
theorem test_ldaIndirectY_wraps :
    after { at' 0x8000 [(0x8000, [0xB1, 0xFF]), (0x00FF, [0xFF]), (0x0000, [0xFF]), (0x0100, [0x20])] with y := 0x01 }
      = obs 0xFF 0 0x01 0x80 0x8002 := by decide
/-- V-TAX-2. -/
theorem test_tax_zero : after { at' 0x8000 [(0x8000, [0xAA])] with x := 0x33, p := 0x80 } = obs 0 0 0 0x02 0x8001 := by
  decide
/-- V-TAX-3. -/
theorem test_tax_negative :
    after { at' 0x8000 [(0x8000, [0xAA])] with a := 0x80, p := 0x02 } = obs 0x80 0x80 0 0x80 0x8001 := by decide
/-- V-INX-1. -/
theorem test_inx_wraps : after { at' 0x8000 [(0x8000, [0xE8])] with x := 0xFF, p := 0x80 } = obs 0 0 0 0x02 0x8001 := by
  decide
/-- V-INX-8. -/
theorem test_inx_keeps_the_rest :
    after { at' 0xFFFF [(0xFFFF, [0xE8])] with a := 0x09, x := 0x01, y := 0x07, p := 0x7D }
      = obs 0x09 0x02 0x07 0x7D 0x0000 := by decide
/-- V-BRK-2. -/
theorem test_brk_keeps_the_rest :
    after { at' 0xFFFF [] with a := 0x01, x := 0x02, y := 0x03, p := 0xFF }
      = some ⟨0x01, 0x02, 0x03, 0xFF, 0x0000, .halted⟩ := by decide
/-- V-BRK-3. -/
theorem test_halted_takes_no_step :
    step { at' 0x8000 [(0x8000, [0xE8])] with rs := .halted }
      = .next { at' 0x8000 [(0x8000, [0xE8])] with rs := .halted } := rfl
/-- V-UNI-2. -/
theorem test_unimplemented_opcode :
    after { at' 0xFFFF [(0xFFFF, [0xFF])] with a := 0x01, x := 0x02, y := 0x03, p := 0x82 }
      = some ⟨0x01, 0x02, 0x03, 0x82, 0x0000, .faulted .unimplementedOpcode 0xFF 0xFFFF⟩ := by decide
/-- V-UNI-4. -/
theorem test_unimplemented_skips_no_operand :
    after (at' 0x8000 [(0x8000, [0xA2, 0x05])])
      = some ⟨0, 0, 0, 0, 0x8001, .faulted .unimplementedOpcode 0xA2 0x8000⟩ := by decide

/-! ## Flags, reads, reset, memory and the loader -/

/-- V-FLG-6 to V-FLG-10. -/
theorem test_updateFlags :
    updateFlags 0x82 0x05 = 0x00 ∧ updateFlags 0xFF 0x05 = 0x7D ∧ updateFlags 0xFF 0x00 = 0x7F ∧
      updateFlags 0xFF 0x80 = 0xFD ∧ updateFlags 0x02 0x80 = 0x80 := by decide
/-- R27: the places of the eight flags, from the masks of its table. -/
theorem test_flag_masks :
    flagN 0x80 = true ∧ flagV 0x40 = true ∧ flagU 0x20 = true ∧ flagB 0x10 = true ∧ flagD 0x08 = true ∧
      flagI 0x04 = true ∧ flagZ 0x02 = true ∧ flagC 0x01 = true := by decide
/-- The example of R104: ZeroPage,Y, which no opcode selects. -/
theorem test_resolver_zeroPageY :
    effectiveAddress .zeroPageY { at' 0x8001 [(0x8001, [0xFF])] with y := 0x01 } = some 0x0000 := by decide
/-- The reads column of V-LDA-INDX-2 and V-LDA-ABS-2. -/
theorem test_reads :
    stepReads { at' 0x8000 [(0x8000, [0xA1, 0xF0]), (0x00FF, [0x34]), (0x0000, [0x12])] with x := 0x0F }
        = [0x8000, 0x8001, 0x00FF, 0x0000, 0x1234] ∧
      stepReads (at' 0xFFFE [(0xFFFE, [0xAD, 0x34, 0x12])]) = [0xFFFE, 0xFFFF, 0x0000, 0x1234] := by decide
/-- V-RST-1. -/
theorem test_reset_discards_fault :
    observe (performReset ⟨0x55, 0x66, 0x77, 0xFF, 0xABCD, .faulted .unimplementedOpcode 0xEA 0xABCC,
      blocks [(0xFFFC, [0x34, 0x12])]⟩) = ⟨0, 0, 0, 0, 0x1234, .running⟩ := by decide
/-- V-RST-2. -/
theorem test_reset_without_vector : after (performReset powerOn) = some ⟨0, 0, 0, 0, 0x0001, .halted⟩ := by decide
/-- V-MEM-1. -/
theorem test_writeWord_wraps :
    hostRead 0xFFFF (hostWriteWord 0xFFFF 0xBEEF powerOn) = 0xEF ∧
      hostRead 0x0000 (hostWriteWord 0xFFFF 0xBEEF powerOn) = 0xBE ∧
      hostReadWord 0xFFFF (hostWriteWord 0xFFFF 0xBEEF powerOn) = 0xBEEF := by decide
/-- The canonical form: entries stand in address order, and writing the power-on value removes one. -/
theorem test_memory_canonical :
    blocks [(0x0200, [0x01]), (0x0100, [0x02])] = [(0x0100, 0x02), (0x0200, 0x01)] ∧
      blocks [(0x0200, [0x01]), (0x0200, [0x00])] = [] ∧ Memory.wf [(0x0200, 0x01), (0x0100, 0x02)] = false ∧
      Memory.wf [(0x0100, 0x00)] = false ∧ Memory.wf [(0x10000, 0x01)] = false := by decide
/-- V-LD-4 and R204: the image, the vector, and nothing else. -/
theorem test_loadProgram :
    loadProgram [0xA5, 0x10, 0x00] { powerOn with mem := blocks [(0x0010, [0x55])] }
      = .next { powerOn with mem := [(0x0010, 0x55), (0x8000, 0xA5), (0x8001, 0x10), (0xFFFD, 0x80)] } := by rfl
/-- V-LD-3. -/
theorem test_loadProgram_refuses (s : State) : loadProgram (List.replicate 0x8001 0xE8) s = .refused .imageTooLong :=
  if_neg (by rw [List.length_replicate]; decide)

/-! ## Witnesses: for each statement with hypotheses, concrete states and operands that meet them, at boundary values
of each clause -/

/-- A running state whose step fetches the given bytes across the top of memory. -/
def top (bs : List Byte) : State := at' 0xFFFF [(0xFFFF, bs)]

/-- The five kinds of step: LDA, TAX, INX, BRK, and the unimplemented neighbours of the table's ends. -/
def kinds : List State := [top [0xA1], top [0xBD], top [0xAA], top [0xE8], top [0x00], top [0x01], top [0xFF]]

theorem witness_StepRunsDecodedInstruction :
    (top [0xAD, 0x34, 0x12]).rs = .running ∧
    decode [byteAt (top [0xAD, 0x34, 0x12]).mem 0xFFFF, byteAt (top [0xAD, 0x34, 0x12]).mem 0x10000,
      byteAt (top [0xAD, 0x34, 0x12]).mem 0x10001] = .ok (.ldaAbsolute 0x1234, []) ∧
    decode [byteAt (top [0xFF]).mem 0xFFFF, byteAt (top [0xFF]).mem 0x10000, byteAt (top [0xFF]).mem 0x10001]
      = .error (.unimplementedOpcode 0xFF) := by decide

theorem witness_NoStepOutsideRunning :
    powerOn.rs ≠ .running ∧ { powerOn with rs := .faulted .unimplementedOpcode 0xFF 0xFFFF }.rs ≠ .running := by decide

theorem witness_StepFrameByOpcode :
    (∀ s ∈ kinds, s.rs = .running ∧ ∃ t, step s = .next t) ∧
    kinds.map (fun s => byteAt s.mem s.pc.toNat) = [0xA1, 0xBD, 0xAA, 0xE8, 0x00, 0x01, 0xFF] := by
  refine ⟨?_, by decide⟩
  intro s hs
  simp only [kinds, List.mem_cons, List.not_mem_nil, or_false] at hs
  rcases hs with rfl | rfl | rfl | rfl | rfl | rfl | rfl <;> exact ⟨rfl, _, rfl⟩

theorem witness_ExecFrame :
    ∀ i ∈ [Instr.brk, .tax, .inx, .ldaIndirectX 0xFF, .ldaAbsoluteX 0xFFFF], ∃ t, exec i State.reset = .next t := by
  intro i hi
  simp only [List.mem_cons, List.not_mem_nil, or_false] at hi
  rcases hi with rfl | rfl | rfl | rfl | rfl <;> exact ⟨_, rfl⟩

theorem witness_ControlFlowIsSequential :
    (top [0xAD, 0x34, 0x12]).rs = .running ∧
    decode (fetchBytes (top [0xAD, 0x34, 0x12]).mem 0xFFFF) = .ok (.ldaAbsolute 0x1234, []) ∧
    ∃ t, step (top [0xAD, 0x34, 0x12]) = .next t := ⟨by decide, by decide, _, rfl⟩

theorem witness_OtherOpcodesRejected :
    (0x01 : Byte) ∉ implementedOpcodes ∧ (0xFF : Byte) ∉ implementedOpcodes ∧ (top [0xFF]).rs = .running ∧
    byteAt (top [0xFF]).mem (top [0xFF]).pc.toNat ∉ implementedOpcodes := by decide

theorem witness_DecoderAgreesWithTable :
    descriptorOf 0x00 = some ⟨.brk, .noneAddressing, 1⟩ ∧ descriptorOf 0xBD = some ⟨.lda, .absoluteX, 3⟩ ∧
    (0xE8 : Byte) ∈ implementedOpcodes := by decide

theorem witness_DecodeEncodeAgree :
    decode [0xB9, 0xFF, 0x00, 0x07] = .ok (.ldaAbsoluteY 0x00FF, [0x07]) ∧
    [(0xB9 : Byte), 0xFF, 0x00, 0x07] = encode (.ldaAbsoluteY 0x00FF) ++ [0x07] := by decide

theorem witness_WrittenInstructionIsFetched : (top []).rs = .running ∧ (top []).pc = 0xFFFF := by decide

theorem witness_FlagUpdateInvocations :
    ∀ i ∈ [Instr.brk, .tax, .inx, .ldaImmediate 0x80], ∃ t, exec i State.reset = .next t := by
  intro i hi
  simp only [List.mem_cons, List.not_mem_nil, or_false] at hi
  rcases hi with rfl | rfl | rfl | rfl <;> exact ⟨_, rfl⟩

theorem witness_FlagsCorrectAfterLoad :
    ∀ v ∈ [(0x00 : Byte), 0x7F, 0x80, 0xFF],
      (Instr.ldaImmediate v).mnemonic = .lda ∧ ∃ t, exec (.ldaImmediate v) State.reset = .next t ∧ t.a = v :=
  fun _ _ => ⟨rfl, _, rfl, rfl⟩

theorem witness_StatusNeverRead : ∃ t, step { top [0xE8] with p := 0xFF } = .next t := ⟨_, rfl⟩

theorem witness_InvalidAddressingModeUnreachable : (top [0xA1]).rs = .running ∧ ∃ t, step (top [0xA1]) = .next t :=
  ⟨rfl, _, rfl⟩

theorem stepReads_of_top : stepReads (top [0xA9, 0x80]) = [0xFFFF, 0x0000] := by decide

/-- The byte at 0x0200 is not read by the step, and differs. -/
theorem witness_StepDependsOnlyOnItsReads :
    (∀ c ∈ stepReads (top [0xA9, 0x80]),
      (blocks [(0xFFFF, [0xA9, 0x80]), (0x0200, [0x01])]).read c = (top [0xA9, 0x80]).mem.read c) ∧
    (blocks [(0xFFFF, [0xA9, 0x80]), (0x0200, [0x01])]).read 0x0200 ≠ (top [0xA9, 0x80]).mem.read 0x0200 ∧
    ∃ t, step (top [0xA9, 0x80]) = .next t := by
  refine ⟨?_, by decide, _, rfl⟩
  intro c hc
  rw [stepReads_of_top, List.mem_cons, List.mem_singleton] at hc
  rcases hc with rfl | rfl <;> decide

/-- One state for each clause: the two other kinds of step are in `kinds`. -/
theorem witness_ReadsPerStep :
    (top [0xA9]).rs = .running ∧ byteAt (top [0xA9]).mem 0xFFFF = 0xA9 ∧
    byteAt (top [0xA5]).mem 0xFFFF ∈ [(0xA5 : Byte), 0xB5] ∧ byteAt (top [0xB5]).mem 0xFFFF ∈ [(0xA5 : Byte), 0xB5] ∧
    byteAt (top [0xAD]).mem 0xFFFF ∈ [(0xAD : Byte), 0xBD, 0xB9] ∧
    byteAt (top [0xB1]).mem 0xFFFF ∈ [(0xA1 : Byte), 0xB1] ∧ byteAt (top [0x00]).mem 0xFFFF ∉ ldaOpcodes ∧
    byteAt (top [0xFF]).mem 0xFFFF ∉ ldaOpcodes := by decide

theorem witness_ResolverAddresses : descriptorOf 0xB5 = some ⟨.lda, .zeroPageX, 2⟩ := by decide

theorem witness_NoneAddressingRaises : effectiveAddress .noneAddressing State.reset = none := by decide

theorem witness_AddressingModeEquivalence :
    (Operand.zeroPageY 0xFF).mode ≠ .noneAddressing ∧ (top []).p = State.reset.p ∧
    ∀ b, Operand.zeroPageY 0xFF ≠ .immediate b := ⟨by decide, by decide, fun _ h => nomatch h⟩

theorem witness_LdaCommonMeaning :
    (Instr.ldaAbsoluteX 0xFF34).mnemonic = .lda ∧
    fetchOperand (Instr.ldaAbsoluteX 0xFF34).operand.mode (at' 0xFFFF [(0xFFFF, [0x34, 0xFF])])
      = (Instr.ldaAbsoluteX 0xFF34).operand := by decide

theorem witness_LdaImmediateLoads : (top [0xA9]).rs = .running ∧ byteAt (top [0xA9]).mem 0xFFFF = 0xA9 := by decide
theorem witness_LdaZeroPageLoads : (top [0xA5]).rs = .running ∧ byteAt (top [0xA5]).mem 0xFFFF = 0xA5 := by decide
theorem witness_LdaZeroPageXLoads : (top [0xB5]).rs = .running ∧ byteAt (top [0xB5]).mem 0xFFFF = 0xB5 := by decide
theorem witness_LdaAbsoluteLoads : (top [0xAD]).rs = .running ∧ byteAt (top [0xAD]).mem 0xFFFF = 0xAD := by decide
theorem witness_LdaAbsoluteXLoads : (top [0xBD]).rs = .running ∧ byteAt (top [0xBD]).mem 0xFFFF = 0xBD := by decide
theorem witness_LdaAbsoluteYLoads : (top [0xB9]).rs = .running ∧ byteAt (top [0xB9]).mem 0xFFFF = 0xB9 := by decide
theorem witness_LdaIndirectXLoads : (top [0xA1]).rs = .running ∧ byteAt (top [0xA1]).mem 0xFFFF = 0xA1 := by decide
theorem witness_LdaIndirectYLoads : (top [0xB1]).rs = .running ∧ byteAt (top [0xB1]).mem 0xFFFF = 0xB1 := by decide
theorem witness_TaxCopiesAToX : (top [0xAA]).rs = .running ∧ byteAt (top [0xAA]).mem 0xFFFF = 0xAA := by decide
theorem witness_InxIncrementsX : (top [0xE8]).rs = .running ∧ byteAt (top [0xE8]).mem 0xFFFF = 0xE8 := by decide
theorem witness_BrkHalts : (top [0x00]).rs = .running ∧ byteAt (top [0x00]).mem 0xFFFF = 0x00 := by decide

theorem witness_UnimplementedOpcodeFaults :
    (top [0x01]).rs = .running ∧ byteAt (top [0x01]).mem (top [0x01]).pc.toNat ∉ implementedOpcodes := by decide

theorem witness_StepEndsRunExactlyWhen : ∀ s ∈ [top [0x00], top [0x01], top [0xA1]], s.rs = .running ∧ ∃ t, step s = .next t := by
  intro s hs
  simp only [List.mem_cons, List.not_mem_nil, or_false] at hs
  rcases hs with rfl | rfl | rfl <;> exact ⟨rfl, _, rfl⟩

theorem witness_RunCompletesOnlyThroughBrk :
    (top [0xE8]).rs = .running ∧ ∃ t, CompletesIn (top [0xE8]) t :=
  ⟨rfl, _, ⟨2, rfl, by decide⟩, by decide⟩

theorem witness_RunEndIsUnique : ∃ t, RunEndsIn (top [0x01]) t := ⟨_, 1, rfl, by decide⟩

/-- Memory with every byte 0xE8 (the memory of P7). -/
def filledFrom (lo : Nat) : Nat → Memory
  | 0 => []
  | n + 1 => (lo, 0xE8) :: filledFrom (lo + 1) n

theorem find_filledFrom (n lo k : Nat) (h : lo ≤ k) (hk : k < lo + n) :
    Memory.find k (filledFrom lo n) = some 0xE8 := by
  induction n generalizing lo with
  | zero => omega
  | succ n ih =>
    simp only [filledFrom, Memory.find]
    split
    · rfl
    · exact ih (lo + 1) (by omega) (by omega)

theorem witness_RunWithoutStoppingByteNeverEnds :
    { State.reset with mem := filledFrom 0 65536 }.rs = .running ∧
    ∀ c : Addr, Memory.read (filledFrom 0 65536) c ∈ implementedOpcodes ∧
      Memory.read (filledFrom 0 65536) c ≠ 0x00 := by
  refine ⟨rfl, fun c => ?_⟩
  have h : Memory.read (filledFrom 0 65536) c = 0xE8 := by
    simp only [Memory.read, find_filledFrom 65536 0 c.toNat (Nat.zero_le _) (by have := c.isLt; omega), Option.getD_some]
  rw [h]
  decide

theorem witness_HostByteWriteThenRead : (0x0000 : Addr) ≠ 0xFFFF ∧ (0xFFFE : Addr) ≠ 0xFFFF := by decide

theorem witness_WordsAreLittleEndian :
    (0xFFFE : Addr) ≠ 0xFFFF ∧ (0xFFFE : Addr) ≠ 0xFFFF + 1 ∧ (0x0001 : Addr) ≠ 0xFFFF ∧ (0x0001 : Addr) ≠ 0xFFFF + 1 := by
  decide

theorem witness_CanonicalMemoriesAreExtensional :
    (blocks [(0xFFFF, [0x01]), (0x0000, [0x02])]).wf = true ∧ (blocks [(0x0000, [0x02]), (0xFFFF, [0x01])]).wf = true ∧
    ∀ c : Addr, (blocks [(0xFFFF, [0x01]), (0x0000, [0x02])]).read c = (blocks [(0x0000, [0x02]), (0xFFFF, [0x01])]).read c :=
  ⟨by decide, by decide, fun _ => rfl⟩

/-- Runs from reset and from a later state, for the clause on a second reset. -/
theorem witness_ResetClearsAndLoadsVector : ∃ t, runFor 1 (performReset (top [0xE8])) = .next t := ⟨_, rfl⟩

theorem witness_LoadProgramPlacesImage :
    (List.replicate 0x8000 (0xE8 : Byte)).length ≤ 0x8000 ∧ 0x8000 < (List.replicate 0x8001 (0xE8 : Byte)).length ∧
    0x8000 + 0x7FFB ≠ 0xFFFC ∧ 0x8000 + 0x7FFF ≠ 0xFFFD ∧ (0x7FFF < 65536 ∧ 0x7FFF < 0x8000) := by
  rw [List.length_replicate, List.length_replicate]
  decide

theorem witness_LoadAndRunStartsAtOrigin :
    ([] : List Byte).length ≤ 0x8000 ∧ (List.replicate 0x8000 (0xE8 : Byte)).length ≤ 0x8000 := by
  rw [List.length_replicate]
  decide

theorem witness_HostWritesNoRegister :
    (∃ t, applyHostOp (.loadProgram [0xA9, 0x05, 0x00]) powerOn = .next t) ∧
    (∃ t, applyHostOp (.write 0xFFFF 0x01) powerOn = .next t) ∧
    (∃ t, applyHostOp (.writeWord 0xFFFF 0xBEEF) powerOn = .next t) := ⟨⟨_, rfl⟩, ⟨_, rfl⟩, ⟨_, rfl⟩⟩

theorem witness_RunNeverWritesMemory : ∃ t, runFor 2 (top [0xE8]) = .next t := ⟨_, rfl⟩

/-- The invariant at a running state and at a faulted one, each of whose steps answers next. -/
theorem witness_StepKeepsCoreInv :
    (CoreInv (top [0xFF]) ∧ ∃ t, step (top [0xFF]) = .next t) ∧
    (CoreInv { top [0xFF] with pc := 0x0000, rs := .faulted .unimplementedOpcode 0xFF 0xFFFF }) := by
  refine ⟨⟨⟨by decide, rfl, .inl rfl, ?_⟩, _, rfl⟩, by decide, rfl, .inl rfl, ?_⟩
  · intro k o c h; cases h
  · intro k o c h; cases h; decide

theorem witness_HostReachableStatesMeetCoreInv :
    (CoreInv (top [0xE8]) ∧ ∃ t, applyHostOp (.run 2) (top [0xE8]) = .next t) ∧ HostReachable powerOn := by
  refine ⟨⟨⟨by decide, rfl, .inl rfl, ?_⟩, _, rfl⟩, .powerOn [] rfl⟩
  intro k o c h; cases h

end Sys2Proof.Tests
end

/-! ## The status byte and the invariant of a step (spec/10_state.md R23, R27 to R31; spec/60_exceptions.md R171) -/

namespace Sys2Proof.Machine

/-- The resolver does not read P: the address is made from X, Y, `pc` and memory (R101 to R110). -/
@[simp] theorem operandDatum_with_status (o : Operand) (s : State) (q : Byte) :
    operandDatum o { s with p := q } = operandDatum o s := by
  cases o <;> rfl

/-- No instruction reads P (R30): only the P it leaves may depend on the P it began with, through the bits the flag
updater preserves. -/
theorem exec_with_status {i : Instr} {s t : State} (q : Byte) (h : exec i s = .next t) :
    ∃ q', exec i { s with p := q } = .next { t with p := q' } := by
  obtain ⟨rfl, rfl⟩ | ⟨rfl, rfl⟩ | ⟨rfl, rfl⟩ | ⟨hlda, v, hv, rfl⟩ := exec_cases h
  · exact ⟨q, rfl⟩
  · exact ⟨updateFlags q s.a, rfl⟩
  · exact ⟨updateFlags q (s.x + 1), rfl⟩
  · have hv' : operandDatum i.operand { s with p := q } = some v := by rw [operandDatum_with_status, hv]
    exact ⟨updateFlags q v, by rw [exec_lda hlda, loadAccumulator_of_datum hv']; rfl⟩

/-- The fetch and the decoder read `pc` and memory alone, so a step depends on P no more than its instruction does. -/
theorem step_with_status {s t : State} (q : Byte) (h : step s = .next t) :
    ∃ q', step { s with p := q } = .next { t with p := q' } := by
  obtain ⟨hr, rfl⟩ | ⟨hr, i, rest, hd, hx⟩ | ⟨hr, e, hd, rfl⟩ := step_cases h
  · exact ⟨q, step_of_not_running hr⟩
  · obtain ⟨q', hq⟩ := exec_with_status q hx
    exact ⟨q', (step_of_decode (s := { s with p := q }) hr hd).trans hq⟩
  · exact ⟨q, step_of_error (s := { s with p := q }) hr hd⟩

end Sys2Proof.Machine

namespace Sys2Proof.Safety

open Sys2Proof.Machine

/-- The flag updater keeps P within the patterns of R31: none of them has a bit the updater preserves, and a result
sets at most one of Z and N. -/
theorem reachableStatus_updateFlags {p : Byte} (v : Byte) (hp : ReachableStatus p) :
    ReachableStatus (updateFlags p v) := by
  have hkept : p &&& 0x7D#8 = 0x00#8 := by rcases hp with rfl | rfl | rfl <;> rfl
  have hN : v &&& 0x80#8 = if v.getLsbD 7 then 0x80#8 else 0x00#8 := BitVec.and_twoPow v 7
  by_cases hv : v = 0x00#8
  · subst hv
    exact .inr (.inl (by simp [updateFlags, hkept]))
  · split at hN
    · exact .inr (.inr (by simp [updateFlags, hkept, hN, hv]))
    · exact .inl (by simp [updateFlags, hkept, hN, hv])

/-- Outside `Faulted` there is no record to be sound. -/
theorem faultRecordSound_of_running_or_halted {s : State} (h : s.rs = .running ∨ s.rs = .halted) :
    FaultRecordSound s := by
  intro kind opcode fetchedAt hf
  simp [hf] at h

/-- The fatal condition of R171 records a byte outside the table at the address just behind `pc`. -/
theorem faultRecordSound_of_undecoded {s : State} {e : DecodeError}
    (hd : decode (fetchBytes s.mem s.pc) = .error e) :
    FaultRecordSound (raiseFatal .unimplementedOpcode (s.mem.read s.pc) s.pc (advancePc 1 s)) := by
  have hnone : descriptorOf (s.mem.read s.pc) = none := (decode_error_cases hd).2
  intro kind opcode fetchedAt hf
  cases hf
  exact ⟨rfl, hnone, rfl⟩

/-- The one clause that speaks of `pc` is empty of a running state, so a fetch may move it. -/
theorem coreInv_advancePc {s : State} (n : Nat) (hr : s.rs = .running) (hs : CoreInv s) :
    CoreInv (advancePc n s) := by
  obtain ⟨hmem, hy, hp, -⟩ := hs
  exact ⟨hmem, hy, hp, faultRecordSound_of_running_or_halted (.inl hr)⟩

/-- No instruction writes Y or memory or raises a fatal condition, and each writes P through the flag updater only
(R23, R31). -/
theorem coreInv_exec {i : Instr} {s t : State} (hr : s.rs = .running) (hs : CoreInv s) (h : exec i s = .next t) :
    CoreInv t := by
  obtain ⟨hmem, hy, hp, -⟩ := hs
  obtain ⟨-, rfl⟩ | ⟨-, rfl⟩ | ⟨-, rfl⟩ | ⟨-, v, -, rfl⟩ := exec_cases h
  · exact ⟨hmem, hy, hp, faultRecordSound_of_running_or_halted (.inr rfl)⟩
  · exact ⟨hmem, hy, reachableStatus_updateFlags _ hp, faultRecordSound_of_running_or_halted (.inl hr)⟩
  · exact ⟨hmem, hy, reachableStatus_updateFlags _ hp, faultRecordSound_of_running_or_halted (.inl hr)⟩
  · exact ⟨hmem, hy, reachableStatus_updateFlags v hp, faultRecordSound_of_running_or_halted (.inl hr)⟩

/-- The invariant through the three kinds of step; only the undecoded byte makes a new fault record. -/
theorem coreInv_step {s t : State} (hs : CoreInv s) (h : step s = .next t) : CoreInv t := by
  obtain ⟨-, rfl⟩ | ⟨hr, i, rest, -, hx⟩ | ⟨-, e, hd, rfl⟩ := step_cases h
  · exact hs
  · exact coreInv_exec (s := advancePc 1 s) hr (coreInv_advancePc 1 hr hs) hx
  · obtain ⟨hmem, hy, hp, -⟩ := hs
    exact ⟨hmem, hy, hp, faultRecordSound_of_undecoded hd⟩

end Sys2Proof.Safety

namespace Sys2Proof.Laws

/-- Settles O50, by the case split of `Safety.coreInv_step` on the kinds of step. -/
theorem stepKeepsCoreInv : Obligations.StepKeepsCoreInv :=
  fun _ _ hs h => Safety.coreInv_step hs h

/-- Settles O16: the step with another P answers `t` with another P, which agrees with `t` once P is put back. -/
theorem statusNeverRead : Obligations.StatusNeverRead := by
  intro s t q h
  obtain ⟨q', hq⟩ := Machine.step_with_status q h
  exact ⟨{ t with p := q' }, hq, rfl⟩

end Sys2Proof.Laws

/-! ## Memory as the host and the fetch see it (spec/20_memory.md R51 to R56, R68, R70, R71) -/

namespace Sys2Proof.Machine

/-! The bytes of a word. -/

/-- `v[7:0]` as a number (R55). -/
theorem lowByte_toNat (v : Addr) : (lowByte v).toNat = v.toNat % 256 := by
  simp [lowByte, BitVec.extractLsb'_toNat]

/-- `v[15:8]` as a number (R55). -/
theorem highByte_toNat (v : Addr) : (highByte v).toNat = v.toNat / 256 := by
  have hv : v.toNat < 65536 := v.isLt
  have hq : v.toNat / 256 % 256 = v.toNat / 256 := Nat.mod_eq_of_lt (by omega)
  simpa [highByte, BitVec.extractLsb'_toNat, Nat.shiftRight_eq_div_pow] using hq

/-- A word is its two bytes joined (R54, R55). -/
@[simp] theorem joinBytes_highByte_lowByte (v : Addr) : joinBytes (highByte v) (lowByte v) = v := by
  apply BitVec.eq_of_toNat_eq
  rw [Safety.joinBytes_toNat, highByte_toNat, lowByte_toNat, Nat.div_add_mod']

/-! Ascending addresses, which wrap at the top of memory (R51). -/

theorem add_ofNat_succ (a : Addr) (k : Nat) : a + BitVec.ofNat 16 (k + 1) = a + 1 + BitVec.ofNat 16 k := by
  rw [Nat.add_comm, BitVec.ofNat_add, BitVec.add_assoc]
  rfl

/-- Fewer than 65536 places up from an address, the wrap has not come back to it. -/
theorem self_ne_add_ofNat (a : Addr) {k : Nat} (hpos : 0 < k) (hk : k < 65536) : a ≠ a + BitVec.ofNat 16 k := by
  have ha : a.toNat < 65536 := a.isLt
  intro h
  have hn : a.toNat = (a.toNat + k) % 65536 := by simpa using congrArg BitVec.toNat h
  omega

theorem self_ne_add_one (a : Addr) : a ≠ a + 1 := self_ne_add_ofNat a (k := 1) (by decide) (by decide)

/-! Reading after a word write (R54 to R56). -/

theorem Memory.read_writeWord_low (m : Memory) (a v : Addr) : (m.writeWord a v).read a = lowByte v := by
  rw [Memory.writeWord, Memory.read_write_other (self_ne_add_one a), Memory.read_write_same]

theorem Memory.read_writeWord_high (m : Memory) (a v : Addr) : (m.writeWord a v).read (a + 1) = highByte v :=
  Memory.read_write_same _ _ _

theorem Memory.read_writeWord_other {c a : Addr} (hlow : c ≠ a) (hhigh : c ≠ a + 1) (m : Memory) (v : Addr) :
    (m.writeWord a v).read c = m.read c := by
  rw [Memory.writeWord, Memory.read_write_other hhigh, Memory.read_write_other hlow]

theorem Memory.readWord_writeWord (m : Memory) (a v : Addr) : (m.writeWord a v).readWord a = v := by
  rw [Memory.readWord, Memory.read_writeWord_low, Memory.read_writeWord_high, joinBytes_highByte_lowByte]

/-! Reading after writes at ascending addresses. -/

/-- Ascending writes leave every address alone that none of them reaches. -/
theorem Memory.read_writeBytes_other {bs : List Byte} {a c : Addr} (m : Memory)
    (h : ∀ k < bs.length, c ≠ a + BitVec.ofNat 16 k) : (m.writeBytes a bs).read c = m.read c := by
  induction bs generalizing m a with
  | nil => rfl
  | cons b bs ih =>
    have hhead : c ≠ a := by simpa using h 0 (by simp)
    have htail : ∀ k < bs.length, c ≠ a + 1 + BitVec.ofNat 16 k := by
      intro k hk
      rw [← add_ofNat_succ]
      exact h (k + 1) (by simpa using hk)
    rw [Memory.writeBytes, ih _ htail, Memory.read_write_other hhead]

/-- Ascending writes that do not go round the whole of memory are all read back: no later one reaches the place of an
earlier one. -/
theorem Memory.read_writeBytes {bs : List Byte} (m : Memory) (a : Addr) (hlen : bs.length ≤ 65536) {k : Nat}
    (hk : k < bs.length) : (m.writeBytes a bs).read (a + BitVec.ofNat 16 k) = bs[k] := by
  induction bs generalizing m a k with
  | nil => simp at hk
  | cons b bs ih =>
    simp only [List.length_cons] at hlen hk
    cases k with
    | zero =>
      have hlater : ∀ j < bs.length, a ≠ a + 1 + BitVec.ofNat 16 j :=
        fun j hj => add_ofNat_succ a j ▸ self_ne_add_ofNat a j.succ_pos (by omega)
      simpa [Memory.writeBytes, Memory.read_write_same] using Memory.read_writeBytes_other (m.write a b) hlater
    | succ k =>
      rw [add_ofNat_succ]
      exact ih (m.write a b) (a + 1) (by omega) (by omega)

/-! The fetch (R68, R80). -/

/-- Up to three bytes written at an address are the first ones the fetch there sees. -/
theorem take_fetchBytes_writeBytes {bs : List Byte} (m : Memory) (a : Addr) (hlen : bs.length ≤ 3) :
    (fetchBytes (m.writeBytes a bs) a).take bs.length = bs := by
  refine List.ext_getElem (by simpa [fetchBytes] using hlen) fun k _ hk => ?_
  rw [List.getElem_take, ← Memory.read_writeBytes m a (by omega) hk]
  obtain rfl | rfl | rfl : k = 0 ∨ k = 1 ∨ k = 2 := by omega
  · simp [fetchBytes]
  · rfl
  · rfl

/-- An instruction is at most three bytes long (R82). -/
theorem length_encode_le (i : Instr) : (encode i).length ≤ 3 := by
  cases i <;> simp [encode]

/-- The decoder reads back what the encoder wrote, whatever bytes follow (R80 to R84). -/
theorem decode_encode_append (i : Instr) (rest : List Byte) : decode (encode i ++ rest) = .ok (i, rest) := by
  cases i <;> simp [encode, decode, decodeOp8, decodeOp16]

/-- A fetch at a freshly written instruction decodes to it. -/
theorem decode_fetchBytes_writeBytes (i : Instr) (m : Memory) (a : Addr) :
    ∃ rest, decode (fetchBytes (m.writeBytes a (encode i)) a) = .ok (i, rest) := by
  have htake := take_fetchBytes_writeBytes m a (length_encode_le i)
  rw [← List.take_append_drop (encode i).length (fetchBytes _ a), htake]
  exact ⟨_, decode_encode_append i _⟩

/-! Every step answers a next state (R71). -/

/-- With a datum a load loads it, without one it raises the fatal condition: a next state either way (R110, R145). -/
theorem loadAccumulator_answers_next (o : Operand) (s : State) : ∃ t, loadAccumulator o s = .next t := by
  unfold loadAccumulator
  split <;> exact ⟨_, rfl⟩

theorem exec_answers_next (i : Instr) (s : State) : ∃ t, exec i s = .next t := by
  cases i with
  | brk | tax | inx => exact ⟨_, rfl⟩
  | _ => rw [exec_lda rfl]; exact loadAccumulator_answers_next _ s

theorem step_answers_next (s : State) : ∃ t, step s = .next t := by
  by_cases hr : s.rs = .running
  · cases hd : decode (fetchBytes s.mem s.pc) with
    | ok r => exact step_of_decode hr hd ▸ exec_answers_next r.1 (advancePc 1 s)
    | error e => exact ⟨_, step_of_error hr hd⟩
  · exact ⟨s, step_of_not_running hr⟩

/-! Runs (R128, R129). -/

/-- Outside `Running` a run returns at once (R129). -/
theorem runFor_of_not_running {s : State} (hr : s.rs ≠ .running) (fuel : Nat) : runFor fuel s = .next s := by
  cases fuel <;> simp [runFor, hr]

/-- One more step of a bound is one step first, in every run state: outside `Running` neither the step nor the run
changes anything. -/
theorem runFor_succ_of_step {s u : State} (h : step s = .next u) (fuel : Nat) :
    runFor (fuel + 1) s = runFor fuel u := by
  by_cases hr : s.rs = .running
  · simp [runFor, hr, h]
  · obtain rfl : s = u := by simpa [step_of_not_running hr] using h
    rw [runFor_of_not_running hr, runFor_of_not_running hr]

/-- What every step keeps, every run keeps. -/
theorem runFor_keeps {P : State → Prop} (hstep : ∀ s t, P s → step s = .next t → P t) {fuel : Nat} {s t : State}
    (hs : P s) (h : runFor fuel s = .next t) : P t := by
  induction fuel generalizing s with
  | zero => cases h; exact hs
  | succ fuel ih =>
    obtain ⟨u, hu⟩ := step_answers_next s
    rw [runFor_succ_of_step hu] at h
    exact ih (hstep s u hs hu) h

/-! No instruction stores (R70). -/

theorem exec_mem {i : Instr} {s t : State} (h : exec i s = .next t) : t.mem = s.mem := by
  obtain ⟨-, rfl⟩ | ⟨-, rfl⟩ | ⟨-, rfl⟩ | ⟨-, v, -, rfl⟩ := exec_cases h <;> rfl

theorem step_mem {s t : State} (h : step s = .next t) : t.mem = s.mem := by
  obtain ⟨-, rfl⟩ | ⟨-, i, rest, -, hx⟩ | ⟨-, e, -, rfl⟩ := step_cases h
  · rfl
  · exact exec_mem (s := advancePc 1 s) hx
  · rfl

theorem runFor_mem {fuel : Nat} {s t : State} (h : runFor fuel s = .next t) : t.mem = s.mem :=
  runFor_keeps (P := fun u => u.mem = s.mem) (fun _ _ hu hstep => (step_mem hstep).trans hu) rfl h

end Sys2Proof.Machine

namespace Sys2Proof.Safety

open Sys2Proof.Machine

/-- Memories that are the same data read alike. -/
theorem sameMemory_of_mem_eq {s t : State} (h : t.mem = s.mem) : SameMemory s t := ⟨h, fun c => by rw [h]⟩

end Sys2Proof.Safety

namespace Sys2Proof.Laws

open Sys2Proof.Machine Sys2Proof.Safety

/-- Settles O3: both fatal conditions are next states, and the dispatcher has no arm without one. -/
theorem stepAlwaysAnswersNext : Obligations.StepAlwaysAnswersNext := ⟨step_answers_next, exec_answers_next⟩

/-- Settles O12: the fetch at `pc` sees the bytes just written, and the decoder reads the instruction back from them. -/
theorem writtenInstructionIsFetched : Obligations.WrittenInstructionIsFetched := by
  intro i s hr
  obtain ⟨rest, hd⟩ := decode_fetchBytes_writeBytes i s.mem s.pc
  exact step_of_decode (s := { s with mem := s.mem.writeBytes s.pc (encode i) }) hr hd

/-- Settles O40, by the laws of reading after a byte write. -/
theorem hostByteWriteThenRead : Obligations.HostByteWriteThenRead := fun addr v s =>
  ⟨Memory.read_write_same s.mem addr v, fun _ hc => Memory.read_write_other hc s.mem v, rfl⟩

/-- Settles O41: the two bytes of the word stand at two different addresses, so the second write leaves the first. -/
theorem wordsAreLittleEndian : Obligations.WordsAreLittleEndian := by
  intro addr v s
  refine ⟨readWord_toNat s.mem addr, ?low, ?high, Memory.readWord_writeWord s.mem addr v, ?other, rfl⟩
  case low => rw [byteAt_toNat, hostWriteWord_mem, Memory.read_writeWord_low, lowByte_toNat]
  case high =>
    rw [byteAt_toNat_add, ← highByte_toNat]
    exact congrArg BitVec.toNat (Memory.read_writeWord_high s.mem addr v)
  case other => exact fun c hlow hhigh => Memory.read_writeWord_other hlow hhigh s.mem v

/-- Settles O48, by induction on the steps: none of them stores. -/
theorem runNeverWritesMemory : Obligations.RunNeverWritesMemory :=
  fun _ _ _ h => sameMemory_of_mem_eq (runFor_mem h)

end Sys2Proof.Laws

/-! ## The opcode bytes outside the table (spec/30_encoding.md R84, R87; spec/60_exceptions.md R171) -/

namespace Sys2Proof

open Sys2Proof.Safety

/-- The eleven bytes are the keys of the opcode table (R84). -/
theorem implementedOpcodes_eq_opcodeTable_keys : implementedOpcodes = opcodeTable.map Prod.fst := rfl

/-- The table has a row for exactly the eleven bytes (R84, R87). -/
theorem descriptorOf_eq_none_iff {op : Byte} : descriptorOf op = none ↔ op ∉ implementedOpcodes := by
  rw [descriptorOf, List.lookup_eq_none_iff, implementedOpcodes_eq_opcodeTable_keys]
  simp only [List.mem_map, not_exists, not_and, bne_iff_ne]
  exact forall₂_congr fun _ _ => ne_comm

/-- Such a byte passes every comparison of the decoder, whatever follows it (R87). -/
theorem decode_of_not_mem_implementedOpcodes {op : Byte} (h : op ∉ implementedOpcodes) (rest : List Byte) :
    decode (op :: rest) = .error (.unimplementedOpcode op) := by
  simp only [implementedOpcodes, List.mem_cons, List.not_mem_nil, or_false, not_or, BitVec.ofNat_eq_ofNat] at h
  simp only [decode, h, if_false]

end Sys2Proof

namespace Sys2Proof.Machine

open Sys2Proof.Safety

/-- A running step that fetches such a byte raises the fatal condition with its record (R171, R173). -/
theorem step_of_not_mem_implementedOpcodes {s : State} (hr : s.rs = .running)
    (h : s.mem.read s.pc ∉ implementedOpcodes) :
    step s = .next (raiseFatal .unimplementedOpcode (s.mem.read s.pc) s.pc (advancePc 1 s)) :=
  step_of_error hr (decode_of_not_mem_implementedOpcodes h _)

end Sys2Proof.Machine

namespace Sys2Proof.Laws

open Sys2Proof.Machine Sys2Proof.Safety

/-- Settles O9: a byte outside the table matches no comparison of the decoder and no key of the table, and the step
turns the decoder's rejection into the fatal condition. -/
theorem otherOpcodesRejected : Obligations.OtherOpcodesRejected := by
  refine ⟨?rejected, by decide, rfl, ?raises⟩
  case rejected =>
    exact fun op rest h => ⟨decode_of_not_mem_implementedOpcodes h rest, descriptorOf_eq_none_iff.mpr h⟩
  case raises =>
    intro s hr h
    rw [byteAt_toNat] at h
    exact ⟨_, _, _, step_of_not_mem_implementedOpcodes hr h, raiseFatal_rs ..⟩

end Sys2Proof.Laws

/-! ## The rows of the opcode table (spec/30_encoding.md R84, R85) -/

namespace Sys2Proof

open Sys2Proof.Safety

/-- What the lookup answers is a row of the table: a fact about every row is checked on the eleven of them. -/
theorem mem_opcodeTable_of_descriptorOf {op : Byte} {d : Descriptor} (h : descriptorOf op = some d) :
    (op, d) ∈ opcodeTable := by
  obtain ⟨before, after, htable, -⟩ := List.lookup_eq_some_iff.mp h
  simp [htable]

/-- A row of LDA stands at one of its eight opcode bytes (R84). -/
theorem mem_ldaOpcodes_of_descriptorOf {op : Byte} {d : Descriptor} (h : descriptorOf op = some d)
    (hlda : d.mnemonic = .lda) : op ∈ ldaOpcodes := by
  have hrows : ∀ r ∈ opcodeTable, r.2.mnemonic = .lda → r.1 ∈ ldaOpcodes := by decide
  exact hrows (op, d) (mem_opcodeTable_of_descriptorOf h) hlda

/-- No opcode selects ZeroPage,Y (R85). -/
theorem mode_ne_zeroPageY_of_descriptorOf {op : Byte} {d : Descriptor} (h : descriptorOf op = some d) :
    d.mode ≠ .zeroPageY := by
  have hrows : ∀ r ∈ opcodeTable, r.2.mode ≠ .zeroPageY := by decide
  exact hrows (op, d) (mem_opcodeTable_of_descriptorOf h)

end Sys2Proof

/-! ## The resolver's addresses as numbers (spec/40_addressing_modes.md R101 to R111) -/

namespace Sys2Proof.Safety

open Sys2Proof.Machine

/-- The second byte of a zero-page pointer stands one up, modulo 256 (R108, R109). -/
theorem zext16_add_one (b : Byte) : zext16 (b + 1) = BitVec.ofNat 16 ((b.toNat + 1) % 256) := zext16_add b 1

/-- An index added to a 16-bit base wraps at 65536 (R106, R107, R109). -/
theorem add_zext16 (w : Addr) (i : Byte) : w + zext16 i = BitVec.ofNat 16 ((w.toNat + i.toNat) % 65536) := by
  apply BitVec.eq_of_toNat_eq
  simp [zext16_eq_ofNat]

theorem readWord_eq_ofNat (m : Memory) (a : Addr) :
    m.readWord a = BitVec.ofNat 16 (wordAt m a.toNat (a.toNat + 1)) := by
  rw [← readWord_toNat, BitVec.ofNat_toNat, BitVec.setWidth_eq]

theorem readZeroPagePointer_eq_ofNat (m : Memory) (ptr : Byte) :
    m.readZeroPagePointer ptr = BitVec.ofNat 16 (wordAt m ptr.toNat ((ptr.toNat + 1) % 256)) := by
  rw [← readZeroPagePointer_toNat, BitVec.ofNat_toNat, BitVec.setWidth_eq]

end Sys2Proof.Safety

/-! ## The datum of a load (spec/40_addressing_modes.md R110, R114) -/

namespace Sys2Proof.Machine

/-- Of the ten modes NoneAddressing alone takes the operand that has no effective address (R110). -/
theorem fetchOperand_eq_noneAddressing_iff (m : Mode) (s : State) :
    fetchOperand m s = .noneAddressing ↔ m = .noneAddressing := by
  cases m <;> simp [fetchOperand]

/-- The datum stands at the effective address, for an operand that does not hold it itself (R83). -/
theorem operandDatum_of_ne_immediate {o : Operand} (h : ∀ b, o ≠ .immediate b) (s : State) :
    operandDatum o s = (operandAddress o s).map s.mem.read := by
  cases o with
  | immediate b => exact absurd rfl (h b)
  | _ => rfl

theorem exists_operandDatum {o : Operand} (h : o.mode ≠ .noneAddressing) (s : State) :
    ∃ v, operandDatum o s = some v := by
  apply Option.ne_none_iff_exists'.mp
  rw [Ne, operandDatum_eq_none_iff]
  rintro rfl
  exact h rfl

end Sys2Proof.Machine

/-! ## The step as the pseudocode has it, and what it reads (spec/42_dispatch_loop.md R125; spec/40_addressing_modes.md
R113) -/

namespace Sys2Proof.Machine

open Sys2Proof.Safety

/-! The pseudocode step, by the row its opcode byte selects. -/

theorem pseudoStep_of_not_running {s : State} (hr : s.rs ≠ .running) : pseudoStep s = s := by
  cases hs : s.rs with
  | running => exact absurd hs hr
  | halted | faulted => simp only [pseudoStep, hs]

theorem pseudoStep_of_row {s : State} {d : Descriptor} (hr : s.rs = .running)
    (hd : descriptorOf (s.mem.read s.pc) = some d) :
    pseudoStep s = pseudoDispatch d (s.mem.read s.pc) s.pc (advancePc 1 s) := by
  simp only [pseudoStep, hr, hd, advancePc]
  rfl

theorem pseudoStep_of_no_row {s : State} (hr : s.rs = .running) (hd : descriptorOf (s.mem.read s.pc) = none) :
    pseudoStep s = raiseFatal .unimplementedOpcode (s.mem.read s.pc) s.pc (advancePc 1 s) := by
  simp only [pseudoStep, hr, hd]
  rfl

/-- An instruction with its operand fetched at `pc` does what the pseudocode does for its row. -/
theorem pseudoDispatch_of_exec {i : Instr} {s t : State} (ho : i.operand = fetchOperand i.operand.mode s)
    (op : Byte) (a : Addr) (h : exec i s = .next t) : pseudoDispatch i.descriptor op a s = t := by
  obtain ⟨rfl, rfl⟩ | ⟨rfl, rfl⟩ | ⟨rfl, rfl⟩ | ⟨hlda, v, hv, rfl⟩ := exec_cases h
  · rfl
  · rfl
  · rfl
  · rw [ho, operandDatum_fetchOperand] at hv
    obtain ⟨ea, hea, rfl⟩ := Option.map_eq_some_iff.mp hv
    simp only [pseudoDispatch, pseudoLda, Instr.descriptor, hlda, hea]
    rfl

/-- Decoding the whole instruction first makes no difference to a step (R125). -/
theorem step_eq_pseudoStep (s : State) : step s = .next (pseudoStep s) := by
  obtain ⟨t, ht⟩ := step_answers_next s
  rw [ht]
  congr 1
  obtain ⟨hr, rfl⟩ | ⟨hr, i, rest, hd, hx⟩ | ⟨hr, e, hd, rfl⟩ := step_cases ht
  · exact (pseudoStep_of_not_running hr).symm
  · rw [pseudoStep_of_row hr (descriptorOf_of_decode hd), pseudoDispatch_of_exec (operand_of_decode hd) _ _ hx]
  · rw [pseudoStep_of_no_row hr (decode_error_cases hd).2]

/-! The reads of a step. -/

theorem stepReads_of_not_running {s : State} (hr : s.rs ≠ .running) : stepReads s = [] := by
  cases hs : s.rs with
  | running => exact absurd hs hr
  | halted | faulted => simp only [stepReads, hs]

theorem stepReads_of_lda {s : State} {op : Byte} {d : Descriptor} (hr : s.rs = .running)
    (hop : s.mem.read s.pc = op) (hd : descriptorOf op = some d) (hlda : d.mnemonic = .lda) :
    stepReads s =
      s.pc :: (resolverReads d.mode (advancePc 1 s) ++ (effectiveAddress d.mode (advancePc 1 s)).toList) := by
  obtain ⟨mnemonic, mode, length⟩ := d
  cases hlda
  simp only [stepReads, hr, hop, hd]
  rfl

theorem stepReads_of_not_lda {s : State} (hr : s.rs = .running)
    (h : ∀ d, descriptorOf (s.mem.read s.pc) = some d → d.mnemonic ≠ .lda) : stepReads s = [s.pc] := by
  cases hd : descriptorOf (s.mem.read s.pc) with
  | none => simp only [stepReads, hr, hd]
  | some d =>
    obtain ⟨mnemonic, mode, length⟩ := d
    cases mnemonic with
    | lda => exact absurd rfl (h _ hd)
    | brk | tax | inx => simp only [stepReads, hr, hd]

/-- A running step reads its opcode byte first (R58). -/
theorem head?_stepReads {s : State} (hr : s.rs = .running) : (stepReads s).head? = some s.pc := by
  by_cases h : ∃ d, descriptorOf (s.mem.read s.pc) = some d ∧ d.mnemonic = .lda
  · obtain ⟨d, hd, hlda⟩ := h
    rw [stepReads_of_lda hr rfl hd hlda, List.head?_cons]
  · rw [stepReads_of_not_lda hr fun d hd hlda => h ⟨d, hd, hlda⟩, List.head?_cons]

/-! Two memories that agree on the bytes read. -/

section AgreeingMemory
variable {s : State} {m : Memory}

/-- The operand bytes say where the pointer stands, and each of them is read before it. -/
theorem resolverReads_congr_mem (mode : Mode) (h : ∀ c ∈ resolverReads mode s, m.read c = s.mem.read c) :
    resolverReads mode { s with mem := m } = resolverReads mode s := by
  cases mode with
  | indirectX | indirectY =>
    have hpc : m.read s.pc = s.mem.read s.pc := h s.pc (by simp [resolverReads])
    simp only [resolverReads, hpc]
  | _ => rfl

theorem effectiveAddress_congr_mem (mode : Mode) (h : ∀ c ∈ resolverReads mode s, m.read c = s.mem.read c) :
    effectiveAddress mode { s with mem := m } = effectiveAddress mode s := by
  cases mode with
  | immediate | noneAddressing => rfl
  | _ =>
    simp only [resolverReads, List.forall_mem_cons, BitVec.ofNat_eq_ofNat] at h
    simp [effectiveAddress, fetchOperand, operandAddress, Memory.readWord, Memory.readZeroPagePointer, h]

/-- A load takes from memory the effective address and the byte there, nothing else. -/
theorem pseudoLda_congr_mem {mode : Mode}
    (h : ∀ c ∈ resolverReads mode s ++ (effectiveAddress mode s).toList, m.read c = s.mem.read c)
    (op : Byte) (a : Addr) :
    pseudoLda mode op a { s with mem := m } = { pseudoLda mode op a s with mem := m } := by
  have hea := effectiveAddress_congr_mem mode fun c hc => h c (List.mem_append_left _ hc)
  cases hs : effectiveAddress mode s with
  | none => simp only [pseudoLda, hea, hs, raiseFatal]
  | some ea =>
    have hdatum : m.read ea = s.mem.read ea := h ea (by simp [hs])
    simp only [pseudoLda, hea, hs, hdatum]

/-- The opcode byte selects the row, and only an LDA reads more. -/
theorem stepReads_congr_mem (h : ∀ c ∈ stepReads s, m.read c = s.mem.read c) :
    stepReads { s with mem := m } = stepReads s := by
  by_cases hr : s.rs = .running
  · have hpc : m.read s.pc = s.mem.read s.pc := h s.pc (List.mem_of_head? (head?_stepReads hr))
    by_cases hrow : ∃ d, descriptorOf (s.mem.read s.pc) = some d ∧ d.mnemonic = .lda
    · obtain ⟨d, hd, hlda⟩ := hrow
      rw [stepReads_of_lda hr rfl hd hlda] at h ⊢
      have hreads : ∀ c ∈ resolverReads d.mode (advancePc 1 s), m.read c = (advancePc 1 s).mem.read c :=
        fun c hc => h c (List.mem_cons_of_mem _ (List.mem_append_left _ hc))
      rw [stepReads_of_lda (s := { s with mem := m }) hr hpc hd hlda]
      exact congrArg₂ (fun reads ea => s.pc :: (reads ++ Option.toList ea))
        (resolverReads_congr_mem d.mode hreads) (effectiveAddress_congr_mem d.mode hreads)
    · have hnone : ∀ d, descriptorOf (s.mem.read s.pc) = some d → d.mnemonic ≠ .lda :=
        fun d hd hlda => hrow ⟨d, hd, hlda⟩
      rw [stepReads_of_not_lda hr hnone, stepReads_of_not_lda (s := { s with mem := m }) hr (hpc ▸ hnone)]
  · rw [stepReads_of_not_running hr, stepReads_of_not_running (s := { s with mem := m }) hr]

theorem pseudoStep_congr_mem (h : ∀ c ∈ stepReads s, m.read c = s.mem.read c) :
    pseudoStep { s with mem := m } = { pseudoStep s with mem := m } := by
  by_cases hr : s.rs = .running
  · have hpc : m.read s.pc = s.mem.read s.pc := h s.pc (List.mem_of_head? (head?_stepReads hr))
    cases hd : descriptorOf (s.mem.read s.pc) with
    | none =>
      rw [pseudoStep_of_no_row hr hd, pseudoStep_of_no_row (s := { s with mem := m }) hr (hpc ▸ hd)]
      simp only [hpc]
      rfl
    | some d =>
      rw [pseudoStep_of_row hr hd, pseudoStep_of_row (s := { s with mem := m }) hr (hpc ▸ hd)]
      cases hm : d.mnemonic with
      | brk | tax | inx => simp only [pseudoDispatch, hm]; rfl
      | lda =>
        rw [stepReads_of_lda hr rfl hd hm] at h
        simp only [pseudoDispatch, hm, hpc]
        exact pseudoLda_congr_mem (s := advancePc 1 s) (fun c hc => h c (List.mem_cons_of_mem _ hc)) _ _
  · rw [pseudoStep_of_not_running hr, pseudoStep_of_not_running (s := { s with mem := m }) hr]

end AgreeingMemory

end Sys2Proof.Machine

namespace Sys2Proof.Laws

open Sys2Proof.Machine Sys2Proof.Safety

/-- Settles O17: each mode's address is its bit-vector sum, read as a number. -/
theorem resolverAddresses : Obligations.ResolverAddresses := by
  intro s b w x y
  have hb : b = (s.mem.read s.pc).toNat := by rw [← byteAt_toNat]
  have hw : w = (s.mem.readWord s.pc).toNat := (readWord_toNat s.mem s.pc).symm
  have hptr : (b + x) % 256 = (s.mem.read s.pc + s.x).toNat := by rw [hb, BitVec.toNat_add]
  have hptr_succ : (b + x + 1) % 256 = ((b + x) % 256 + 1) % 256 := (Nat.mod_add_mod ..).symm
  have hnext : s.pc + 1 = BitVec.ofNat 16 (s.pc.toNat + 1) := by simp [BitVec.ofNat_add]
  refine ⟨?immediate, ?zeroPage, ?zeroPageX, ?zeroPageY, ?absolute, ?absoluteX, ?absoluteY, ?indirectX, ?indirectY,
    rfl, ?readsByte, ?readsWord, ?readsIndirectX, ?readsIndirectY, fun _ _ => mode_ne_zeroPageY_of_descriptorOf⟩
  case immediate => exact congrArg some (by simp)
  case zeroPage => rw [hb]; exact congrArg some (zext16_eq_ofNat _)
  case zeroPageX | zeroPageY => rw [hb]; exact congrArg some (zext16_add _ _)
  case absolute => exact congrArg some (readWord_eq_ofNat _ _)
  case absoluteX | absoluteY => rw [hw]; exact congrArg some (add_zext16 _ _)
  case indirectX => rw [hptr_succ, hptr]; exact congrArg some (readZeroPagePointer_eq_ofNat _ _)
  case indirectY => rw [hb, ← readZeroPagePointer_toNat]; exact congrArg some (add_zext16 _ _)
  case readsByte => simp [resolverReads]
  case readsWord => simp [resolverReads, ← hnext]
  case readsIndirectX => rw [hptr_succ, hptr, ← zext16_eq_ofNat, ← zext16_add_one]; rfl
  case readsIndirectY => rw [hb, ← zext16_eq_ofNat, ← zext16_add_one]; rfl

/-- Settles O20, on the pseudocode step, whose memory accesses are the listed reads. -/
theorem stepDependsOnlyOnItsReads : Obligations.StepDependsOnlyOnItsReads := by
  intro s t m h ht
  obtain rfl : pseudoStep s = t := by simpa [step_eq_pseudoStep] using ht
  refine ⟨stepReads_congr_mem h, _, step_eq_pseudoStep _, ?observe, ?mem⟩
  case observe => rw [pseudoStep_congr_mem h]; rfl
  case mem => rw [pseudoStep_congr_mem h]

/-- Settles O22: a load is determined by its datum and the P it starts with, and an Immediate operand is its own
datum. -/
theorem addressingModeEquivalence : Obligations.AddressingModeEquivalence := by
  intro o s s' ho hp
  obtain ⟨v, hv⟩ := exists_operandDatum ho s
  refine ⟨_, _, loadAccumulator_of_datum hv, (exec_lda rfl s').trans (loadAccumulator_of_datum rfl), rfl, ?status,
    ?address⟩
  case status => simp [hp]
  case address =>
    intro himm
    rw [operandDatum_of_ne_immediate himm] at hv
    obtain ⟨ea, hea, rfl⟩ := Option.map_eq_some_iff.mp hv
    exact ⟨ea, hea, rfl⟩

/-- Settles O18: the resolver answers `none` for that operand alone, and a load without a datum raises the condition. -/
theorem noneAddressingRaises : Obligations.NoneAddressingRaises :=
  ⟨fun m s => (operandAddress_eq_none_iff _ s).trans (fetchOperand_eq_noneAddressing_iff m s), fun _ => rfl⟩

/-- Settles O21: the row the opcode byte selects gives the mode, and the mode the reads. -/
theorem readsPerStep : Obligations.ReadsPerStep := by
  intro s hr
  rw [byteAt_toNat]
  simp only [List.mem_cons, List.not_mem_nil, or_false]
  refine ⟨head?_stepReads hr, ?immediate, ?zeroPage, ?absolute, ?indirect, ?other⟩
  case immediate => exact fun h => stepReads_of_lda hr h rfl rfl
  case zeroPage | indirect => rintro (h | h) <;> rw [stepReads_of_lda hr h rfl rfl] <;> rfl
  case absolute => rintro (h | h | h) <;> rw [stepReads_of_lda hr h rfl rfl] <;> rfl
  case other => exact fun h => stepReads_of_not_lda hr fun d hd hlda => h (mem_ldaOpcodes_of_descriptorOf hd hlda)

end Sys2Proof.Laws

/-! ## The flag update (spec/41_flag_update.md R120 to R123) -/

namespace Sys2Proof.Safety

open Sys2Proof.Machine

/-- The updater writes Z and N from the result and leaves the other six bits (R120, R122). -/
theorem flagsFrom_updateFlags (result p : Byte) : FlagsFrom result p (updateFlags p result) := by
  refine ⟨updateFlags_getLsbD p result 1, updateFlags_getLsbD p result 7, fun k h1 h7 => ?_⟩
  rw [updateFlags_getLsbD, if_neg h1, if_neg h7]

/-! What a flag update with `result` says of it, as a number (R123). -/

section FlagsFrom
variable {result old new : Byte} (h : FlagsFrom result old new)
include h

theorem flagZ_of_flagsFrom : flagZ new = decide (result.toNat = 0) := by
  obtain ⟨hZ, -, -⟩ := h
  rw [flagZ, hZ]
  exact decide_eq_decide.mpr BitVec.toNat_inj.symm

theorem flagN_of_flagsFrom : flagN new = decide (128 ≤ result.toNat) := by
  obtain ⟨-, hN, -⟩ := h
  rw [flagN, hN]
  exact (BitVec.msb_eq_getLsbD_last result).symm.trans (BitVec.msb_eq_decide result)

/-- Zero is below 128: no result sets both flags. -/
theorem not_flagZ_and_flagN_of_flagsFrom : ¬ (flagZ new = true ∧ flagN new = true) := by
  rw [flagZ_of_flagsFrom h, flagN_of_flagsFrom h, decide_eq_true_eq, decide_eq_true_eq]
  omega

end FlagsFrom

/-- The register an instruction writes is the one its flags follow, and BRK writes none (R121). -/
theorem status_of_exec {i : Instr} {s t : State} (h : exec i s = .next t) :
    (i.mnemonic = .lda → FlagsFrom t.a s.p t.p) ∧ (i.mnemonic = .tax → FlagsFrom t.x s.p t.p) ∧
    (i.mnemonic = .inx → FlagsFrom t.x s.p t.p) ∧ (i.mnemonic = .brk → t.p = s.p) := by
  obtain ⟨rfl, rfl⟩ | ⟨rfl, rfl⟩ | ⟨rfl, rfl⟩ | ⟨hlda, v, -, rfl⟩ := exec_cases h
  · exact ⟨nofun, nofun, nofun, fun _ => halt_p s⟩
  · exact ⟨nofun, fun _ => flagsFrom_updateFlags s.a s.p, nofun, nofun⟩
  · exact ⟨nofun, nofun, fun _ => flagsFrom_updateFlags (s.x + 1) s.p, nofun⟩
  · rw [hlda]
    exact ⟨fun _ => flagsFrom_updateFlags v s.p, nofun, nofun, nofun⟩

end Sys2Proof.Safety

namespace Sys2Proof.Laws

open Sys2Proof.Machine Sys2Proof.Safety

/-- Settles O13: the packed form is the updater's definition, and its bits give the rest. -/
theorem updateFlagsRule : Obligations.UpdateFlagsRule := fun p v =>
  ⟨flagsFrom_updateFlags v p, rfl, not_flagZ_and_flagN_of_flagsFrom (flagsFrom_updateFlags v p)⟩

/-- Settles O14, by the instructions' cases; the fetch and a fatal condition do not write P. -/
theorem flagUpdateInvocations : Obligations.FlagUpdateInvocations :=
  ⟨fun _ _ _ h => status_of_exec h, advancePc_p, raiseFatal_p, fun s => ⟨performReset_p s, by rw [performReset_p]; rfl⟩⟩

/-- Settles O15: the flags follow the A that the load leaves, which is `v`. -/
theorem flagsCorrectAfterLoad : Obligations.FlagsCorrectAfterLoad := by
  rintro i s t v hlda h rfl
  obtain ⟨hflags, -⟩ := status_of_exec h
  exact ⟨flagZ_of_flagsFrom (hflags hlda), flagN_of_flagsFrom (hflags hlda)⟩

end Sys2Proof.Laws

/-! ## The dispatch loop (spec/42_dispatch_loop.md R125 to R133) -/

namespace Sys2Proof

open Sys2Proof.Safety

/-- The row a byte selects names the mnemonic that the byte stands for (columns 1 and 3 of R84). -/
theorem mnemonic_iff_of_descriptorOf {op : Byte} {d : Descriptor} (h : descriptorOf op = some d) :
    (d.mnemonic = .brk ↔ op = 0x00) ∧ (d.mnemonic = .lda ↔ op ∈ ldaOpcodes) ∧
    (d.mnemonic = .tax ↔ op = 0xAA) ∧ (d.mnemonic = .inx ↔ op = 0xE8) := by
  have hrows : ∀ r ∈ opcodeTable, (r.2.mnemonic = .brk ↔ r.1 = 0x00) ∧ (r.2.mnemonic = .lda ↔ r.1 ∈ ldaOpcodes) ∧
      (r.2.mnemonic = .tax ↔ r.1 = 0xAA) ∧ (r.2.mnemonic = .inx ↔ r.1 = 0xE8) := by decide
  exact hrows (op, d) (mem_opcodeTable_of_descriptorOf h)

theorem mem_implementedOpcodes_of_descriptorOf {op : Byte} {d : Descriptor} (h : descriptorOf op = some d) :
    op ∈ implementedOpcodes := by
  by_contra hop
  rw [descriptorOf_eq_none_iff.mpr hop] at h
  cases h

/-- The length of R84: one opcode byte and the mode's operand bytes (R82, R112). -/
theorem length_encode (i : Instr) : (encode i).length = 1 + Machine.operandBytes i.operand.mode := by
  cases i <;> rfl

end Sys2Proof

namespace Sys2Proof.Machine

open Sys2Proof.Safety

/-! What a dispatched instruction leaves in each register. -/

section Exec
variable {i : Instr} {s t : State} (h : exec i s = .next t)
include h

theorem exec_y : t.y = s.y := by
  obtain ⟨-, rfl⟩ | ⟨-, rfl⟩ | ⟨-, rfl⟩ | ⟨-, v, -, rfl⟩ := exec_cases h <;> rfl

/-- The advance is by the mode's operand bytes, none for BRK, TAX and INX (R112, R132). -/
theorem exec_pc : t.pc = s.pc + BitVec.ofNat 16 (operandBytes i.operand.mode) := by
  obtain ⟨rfl, rfl⟩ | ⟨rfl, rfl⟩ | ⟨rfl, rfl⟩ | ⟨-, v, -, rfl⟩ := exec_cases h
  · exact (BitVec.add_zero s.pc).symm
  · exact (BitVec.add_zero s.pc).symm
  · exact (BitVec.add_zero s.pc).symm
  · rfl

theorem exec_a_pc_of_not_lda (hi : i.mnemonic ≠ .lda) : t.a = s.a ∧ t.pc = s.pc := by
  obtain ⟨-, rfl⟩ | ⟨-, rfl⟩ | ⟨-, rfl⟩ | ⟨hlda, -⟩ := exec_cases h
  · exact ⟨rfl, rfl⟩
  · exact ⟨rfl, rfl⟩
  · exact ⟨rfl, rfl⟩
  · exact absurd hlda hi

theorem exec_x_of_not_tax_inx (htax : i.mnemonic ≠ .tax) (hinx : i.mnemonic ≠ .inx) : t.x = s.x := by
  obtain ⟨-, rfl⟩ | ⟨rfl, -⟩ | ⟨rfl, -⟩ | ⟨-, v, -, rfl⟩ := exec_cases h
  · rfl
  · exact absurd rfl htax
  · exact absurd rfl hinx
  · rfl

/-- BRK halts, and no other instruction touches the run state (R140). -/
theorem exec_rs : t.rs = if i.mnemonic = .brk then .halted else s.rs := by
  obtain ⟨rfl, rfl⟩ | ⟨rfl, rfl⟩ | ⟨rfl, rfl⟩ | ⟨hlda, v, -, rfl⟩ := exec_cases h
  · rfl
  · rfl
  · rfl
  · simp [hlda]

/-- The bits other than Z and N: P is written by a flag update or not at all (R121, R122). -/
theorem exec_status_kept {k : Nat} (hZ : k ≠ 1) (hN : k ≠ 7) : t.p.getLsbD k = s.p.getLsbD k := by
  have kept_of_flagsFrom : ∀ {v : Byte}, FlagsFrom v s.p t.p → t.p.getLsbD k = s.p.getLsbD k :=
    fun ⟨_, _, hkept⟩ => hkept k hZ hN
  obtain ⟨hlda, htax, hinx, hbrk⟩ := status_of_exec h
  cases hm : i.mnemonic with
  | brk => rw [hbrk hm]
  | lda => exact kept_of_flagsFrom (hlda hm)
  | tax => exact kept_of_flagsFrom (htax hm)
  | inx => exact kept_of_flagsFrom (hinx hm)

end Exec

/-! What a step does, by the byte at `pc`. -/

/-- A running step dispatches an instruction of the row its opcode byte selects, or raises the condition of R171. -/
theorem step_running_cases {s t : State} (hr : s.rs = .running) (h : step s = .next t) :
    (∃ i : Instr, descriptorOf (s.mem.read s.pc) = some i.descriptor ∧ exec i (advancePc 1 s) = .next t) ∨
    (s.mem.read s.pc ∉ implementedOpcodes ∧
      t = raiseFatal .unimplementedOpcode (s.mem.read s.pc) s.pc (advancePc 1 s)) := by
  obtain ⟨hnr, -⟩ | ⟨-, i, rest, hd, hx⟩ | ⟨-, e, hd, rfl⟩ := step_cases h
  · exact absurd hr hnr
  · exact .inl ⟨i, descriptorOf_of_decode hd, hx⟩
  · exact .inr ⟨descriptorOf_eq_none_iff.mp (decode_error_cases hd).2, rfl⟩

/-- Only BRK's byte and the bytes outside the table take the core out of `Running` (R128, R131). -/
theorem step_stays_running {s t : State} (hr : s.rs = .running) (h : step s = .next t)
    (himpl : s.mem.read s.pc ∈ implementedOpcodes) (hne : s.mem.read s.pc ≠ 0x00) : t.rs = .running := by
  obtain ⟨i, hd, hx⟩ | ⟨hop, -⟩ := step_running_cases hr h
  · obtain ⟨hbrk, -⟩ := mnemonic_iff_of_descriptorOf hd
    have hi : i.mnemonic ≠ .brk := mt hbrk.mp hne
    rw [exec_rs hx, if_neg hi, advancePc_rs, hr]
  · exact absurd himpl hop

theorem advancePc_one_pc_toNat (s : State) : (advancePc 1 s).pc.toNat = (s.pc.toNat + 1) % 65536 :=
  BitVec.toNat_add s.pc 1

/-! Runs, split and bounded (R128, R71). -/

theorem runFor_answers_next (fuel : Nat) (s : State) : ∃ t, runFor fuel s = .next t := by
  induction fuel generalizing s with
  | zero => exact ⟨s, rfl⟩
  | succ fuel ih =>
    obtain ⟨u, hu⟩ := step_answers_next s
    rw [runFor_succ_of_step hu]
    exact ih u

/-- A run of `m + n` steps is a run of `m` steps and then one of `n`. -/
theorem runFor_add {m : Nat} {s t : State} (h : runFor m s = .next t) (n : Nat) :
    runFor (m + n) s = runFor n t := by
  induction m generalizing s with
  | zero => cases h; rw [Nat.zero_add]
  | succ m ih =>
    obtain ⟨u, hu⟩ := step_answers_next s
    rw [runFor_succ_of_step hu] at h
    rw [Nat.succ_add, runFor_succ_of_step hu, ih h]

/-- Once a run has ended, a larger bound on the steps gives the same state (R129). -/
theorem runFor_of_ended {m n : Nat} {s t : State} (hmn : m ≤ n) (h : runFor m s = .next t) (ht : t.rs ≠ .running) :
    runFor n s = .next t := by
  rw [← Nat.add_sub_cancel' hmn, runFor_add h, runFor_of_not_running ht]

/-! The host's load and reset (R200, R204). -/

theorem loadProgram_of_fits {bytes : List Byte} (h : bytes.length ≤ Config.maxImage) (s : State) :
    loadProgram bytes s = .next
      { s with mem := (s.mem.writeBytes Config.origin bytes).writeWord Config.resetVector Config.origin } :=
  if_pos h

/-- The load leaves the origin in the reset vector, where the reset finds it. -/
theorem performReset_pc_of_loadProgram {bytes : List Byte} {s t : State} (h : loadProgram bytes s = .next t) :
    (performReset t).pc = Config.origin := by
  obtain ⟨-, rfl⟩ := loadProgram_cases h
  rw [performReset_pc, Memory.readWord_writeWord]

end Sys2Proof.Machine

namespace Sys2Proof.Laws

open Sys2Proof.Machine Sys2Proof.Safety

/-- Settles O2: decoding the whole instruction first makes no difference to a step. -/
theorem stepRefinesPseudocode : Obligations.StepRefinesPseudocode := step_eq_pseudoStep

/-- Settles O1: the three bytes are the ones the step fetches. -/
theorem stepRunsDecodedInstruction : Obligations.StepRunsDecodedInstruction := by
  have hfetch : ∀ s : State, [byteAt s.mem s.pc.toNat, byteAt s.mem (s.pc.toNat + 1),
      byteAt s.mem (s.pc.toNat + 2)] = fetchBytes s.mem s.pc := by
    intro s
    rw [byteAt_toNat, byteAt_toNat_add, byteAt_toNat_add]
    rfl
  refine ⟨fun s i rest hr hd => ?decoded, fun s e hr hd => ?rejected⟩
  case decoded => exact step_of_decode hr (hfetch s ▸ hd)
  case rejected => exact ⟨_, step_of_error hr (hfetch s ▸ hd), advancePc_one_pc_toNat s⟩

/-- Settles O4, by the equations of the step and the run outside `Running`. -/
theorem noStepOutsideRunning : Obligations.NoStepOutsideRunning :=
  fun _ fuel hr => ⟨step_of_not_running hr, runFor_of_not_running hr fuel⟩

/-- Settles O6, register by register. -/
theorem execFrame : Obligations.ExecFrame := by
  intro i s t h
  obtain ⟨-, -, -, hbrk⟩ := status_of_exec h
  exact ⟨exec_y h, fun _ => by rw [exec_mem h], fun _ => exec_status_kept h,
    exec_a_pc_of_not_lda h, exec_x_of_not_tax_inx h, hbrk, fun hi => by rw [exec_rs h, if_neg hi]⟩

/-- Settles O5: the frame of the instruction that the opcode byte's row names, or of the fatal condition. -/
theorem stepFrameByOpcode : Obligations.StepFrameByOpcode := by
  intro s t hr h
  rw [byteAt_toNat]
  obtain ⟨i, hd, hx⟩ | ⟨hop, rfl⟩ := step_running_cases hr h
  · obtain ⟨hbrk, hlda, htax, hinx⟩ := mnemonic_iff_of_descriptorOf hd
    obtain ⟨-, -, -, hp⟩ := status_of_exec hx
    have hstop : s.mem.read s.pc = 0x00 ∨ s.mem.read s.pc ∉ implementedOpcodes → i.mnemonic = .brk :=
      fun hs => hbrk.mpr (hs.resolve_right (not_not_intro (mem_implementedOpcodes_of_descriptorOf hd)))
    refine ⟨exec_y (s := advancePc 1 s) hx, fun _ => by rw [step_mem h], ?status, ?accumulator, ?indexX,
      fun hs => hp (hstop hs), step_stays_running hr h, fun hs => ⟨?counter, ?ended⟩⟩
    case status => exact fun _ => exec_status_kept (s := advancePc 1 s) hx
    case accumulator =>
      intro hop
      obtain ⟨ha, -⟩ := exec_a_pc_of_not_lda hx (mt hlda.mp hop)
      exact ha
    case indexX =>
      exact fun hAA hE8 => exec_x_of_not_tax_inx (s := advancePc 1 s) hx (mt htax.mp hAA) (mt hinx.mp hE8)
    case counter =>
      obtain ⟨-, hpc⟩ := exec_a_pc_of_not_lda hx (by simp [hstop hs])
      rw [hpc, advancePc_one_pc_toNat]
    case ended => simp [exec_rs hx, hstop hs]
  · exact ⟨rfl, fun _ => rfl, fun _ _ _ => rfl, fun _ => rfl, fun _ _ => rfl, fun _ => rfl,
      fun himpl => absurd himpl hop, fun _ => ⟨advancePc_one_pc_toNat s, nofun⟩⟩

/-- Settles O7: the fetch's advance and the instruction's own add up to the encoding's length. -/
theorem controlFlowIsSequential : Obligations.ControlFlowIsSequential := by
  intro s t i rest hr hd h
  have hx : exec i (advancePc 1 s) = .next t := (step_of_decode hr hd).symm.trans h
  refine ⟨?_, length_encode i⟩
  rw [exec_pc hx, length_encode, advancePc_pc, BitVec.add_assoc, ← BitVec.ofNat_add, BitVec.toNat_add,
    BitVec.toNat_ofNat, Nat.add_mod_mod]

/-- Settles O38: the run with the larger bound ends in the state of the other. -/
theorem runEndIsUnique : Obligations.RunEndIsUnique := by
  rintro s t u ⟨m, hm, ht⟩ ⟨n, hn, hu⟩
  obtain hmn | hnm := Nat.le_total m n
  · exact Host.Outcome.next.inj ((runFor_of_ended hmn hm ht).symm.trans hn)
  · exact Host.Outcome.next.inj (hm.symm.trans (runFor_of_ended hnm hn hu))

/-- Settles O39: every step keeps the core running and memory as it is, so the next byte fetched stops it no more than
the last. -/
theorem runWithoutStoppingByteNeverEnds : Obligations.RunWithoutStoppingByteNeverEnds := by
  intro s hr hbytes
  have hstep : ∀ u v, u.rs = .running ∧ u.mem = s.mem → step u = .next v → v.rs = .running ∧ v.mem = s.mem := by
    rintro u v ⟨hu, hmem⟩ h
    obtain ⟨himpl, hne⟩ := hbytes u.pc
    rw [← hmem] at himpl hne
    exact ⟨step_stays_running hu h himpl hne, (step_mem h).trans hmem⟩
  have hrun : ∀ {fuel t}, runFor fuel s = .next t → t.rs = .running ∧ t.mem = s.mem :=
    fun h => runFor_keeps hstep ⟨hr, rfl⟩ h
  refine ⟨fun fuel => ?_, ?_⟩
  · obtain ⟨t, ht⟩ := runFor_answers_next fuel s
    exact ⟨t, ht, hrun ht⟩
  · rintro ⟨t, fuel, ht, hended⟩
    exact hended (hrun ht).1

/-- Settles O46: the load puts the origin in the reset vector, and the reset takes `pc` from there. -/
theorem loadAndRunStartsAtOrigin : Obligations.LoadAndRunStartsAtOrigin := by
  intro bytes s fuel hlen
  have hload := loadProgram_of_fits hlen s
  refine ⟨_, _, hload, rfl, ?run, rfl, ?observed⟩
  case run => rw [loadAndRunFor, hload]
  case observed => rw [observe, performReset_pc_of_loadProgram hload]; rfl

end Sys2Proof.Laws

/-! ## BRK (spec/43_system_brk.md R140) -/

namespace Sys2Proof.Machine

open Sys2Proof.Safety

@[simp] theorem advancePc_zero (s : State) : advancePc 0 s = s := by
  rw [advancePc, BitVec.add_zero]

theorem advancePc_pc_toNat (n : Nat) (s : State) : (advancePc n s).pc.toNat = (s.pc.toNat + n) % 65536 := by
  rw [advancePc_pc, BitVec.toNat_add, BitVec.toNat_ofNat, Nat.add_mod_mod]

/-- A running step runs the instruction whose encoding stands at `pc` (R80, R125). -/
theorem step_of_encode_append {i : Instr} {s : State} {rest : List Byte} (hr : s.rs = .running)
    (hf : fetchBytes s.mem s.pc = encode i ++ rest) : step s = exec i (advancePc 1 s) :=
  step_of_decode hr (hf ▸ decode_encode_append i rest)

theorem exec_brk (s : State) : exec .brk s = .next (halt s) := rfl

theorem step_of_brk_byte {s : State} (hr : s.rs = .running) (hop : s.mem.read s.pc = 0x00) :
    step s = .next (halt (advancePc 1 s)) := by
  have hf : fetchBytes s.mem s.pc = encode .brk ++ [s.mem.read (s.pc + 1), s.mem.read (s.pc + 2)] :=
    congrArg (· :: _) hop
  rw [step_of_encode_append hr hf, exec_brk]

/-- Halting after an advance of `pc` changes `pc` and the run state only. -/
theorem haltsAfter_halt_advancePc (n : Nat) (s : State) : HaltsAfter n s (halt (advancePc n s)) :=
  ⟨rfl, advancePc_pc_toNat n s, rfl, rfl, rfl, rfl, sameMemory_of_mem_eq rfl⟩

end Sys2Proof.Machine

namespace Sys2Proof.Laws

open Sys2Proof.Machine Sys2Proof.Safety

/-- Settles O34: BRK's arm halts with no advance of its own, so a step that fetches its byte halts after the fetch's
advance by one. -/
theorem brkHalts : Obligations.BrkHalts := by
  refine ⟨rfl, fun s => ?dispatched, fun s hr hop => ?stepped⟩
  case dispatched =>
    have hframe := haltsAfter_halt_advancePc 0 s
    rw [advancePc_zero] at hframe
    exact ⟨halt s, exec_brk s, hframe⟩
  case stepped =>
    rw [byteAt_toNat] at hop
    exact ⟨_, step_of_brk_byte hr hop, haltsAfter_halt_advancePc 1 s⟩

end Sys2Proof.Laws

/-! ## LDA (spec/44_load_lda.md R145 to R153) -/

namespace Sys2Proof.Machine

/-! The operand word, low byte first (R81). -/

@[simp] theorem lowByte_joinBytes (hi lo : Byte) : lowByte (joinBytes hi lo) = lo := by
  have hlo := lo.isLt
  apply BitVec.eq_of_toNat_eq
  rw [lowByte_toNat, Safety.joinBytes_toNat]
  omega

@[simp] theorem highByte_joinBytes (hi lo : Byte) : highByte (joinBytes hi lo) = hi := by
  have hlo := lo.isLt
  apply BitVec.eq_of_toNat_eq
  rw [highByte_toNat, Safety.joinBytes_toNat]
  omega

/-- Each mode that yields an address takes one operand byte or two (R112). -/
theorem operandBytes_eq_one_or_two {m : Mode} (h : m ≠ .noneAddressing) :
    operandBytes m = 1 ∨ operandBytes m = 2 := by
  cases m with
  | noneAddressing => exact absurd rfl h
  | absolute | absoluteX | absoluteY => exact .inr rfl
  | immediate | zeroPage | zeroPageX | zeroPageY | indirectX | indirectY => exact .inl rfl

end Sys2Proof.Machine

namespace Sys2Proof.Safety

open Sys2Proof.Machine

/-! The addresses of the indirect modes and the operand word, as numbers (R81, R108, R109). -/

/-- The index is added to the base before the pointer is fetched, and both sums wrap in the zero page (R108). -/
theorem readZeroPagePointer_add_eq_ofNat (m : Memory) (b i : Byte) :
    m.readZeroPagePointer (b + i) =
      BitVec.ofNat 16 (wordAt m ((b.toNat + i.toNat) % 256) ((b.toNat + i.toNat + 1) % 256)) := by
  rw [readZeroPagePointer_eq_ofNat, BitVec.toNat_add, Nat.mod_add_mod]

/-- The index is added to the pointer after it is fetched, a 16-bit sum (R109). -/
theorem readZeroPagePointer_add_zext16 (m : Memory) (b i : Byte) :
    m.readZeroPagePointer b + zext16 i =
      BitVec.ofNat 16 ((wordAt m b.toNat ((b.toNat + 1) % 256) + i.toNat) % 65536) := by
  rw [add_zext16, readZeroPagePointer_toNat]

theorem joinBytes_byteAt_toNat (m : Memory) (lo hi : Nat) :
    (joinBytes (byteAt m hi) (byteAt m lo)).toNat = wordAt m lo hi :=
  joinBytes_toNat _ _

theorem fetchBytes_eq_byteAt (m : Memory) (a : Addr) :
    fetchBytes m a = [byteAt m a.toNat, byteAt m (a.toNat + 1), byteAt m (a.toNat + 2)] := by
  rw [byteAt_toNat, byteAt_toNat_add, byteAt_toNat_add]
  rfl

/-! What a load leaves (R145). -/

theorem loadsA_advancePc_writeA (v : Byte) (n : Nat) (s : State) : LoadsA v n s (advancePc n (writeA v s)) :=
  ⟨rfl, flagsFrom_updateFlags v s.p, advancePc_pc_toNat n s, rfl, rfl, rfl, sameMemory_of_mem_eq rfl⟩

/-- Advances of `pc` add up, and nothing else tells the advanced state from the one before it. -/
theorem loadsA_of_loadsA_advancePc {v : Byte} {k n : Nat} {s t : State} (h : LoadsA v n (advancePc k s) t) :
    LoadsA v (n + k) s t := by
  obtain ⟨ha, hflags, hpc, hframe⟩ := h
  refine ⟨ha, hflags, ?_, hframe⟩
  rw [hpc, advancePc_pc_toNat, Nat.mod_add_mod, Nat.add_comm n k, Nat.add_assoc]

/-- An LDA loads its operand's datum. -/
theorem exec_loadsA_of_datum {i : Instr} {s : State} {v : Byte} (hlda : i.mnemonic = .lda)
    (hv : operandDatum i.operand s = some v) :
    ∃ t, exec i s = .next t ∧ LoadsA v (operandBytes i.operand.mode) s t :=
  ⟨_, (exec_lda hlda s).trans (loadAccumulator_of_datum hv), loadsA_advancePc_writeA v _ s⟩

/-- An LDA whose operand is not its own datum loads the byte at the operand's address, given as a number. -/
theorem exec_loadsA_of_address {i : Instr} {s : State} {n : Nat} (hlda : i.mnemonic = .lda)
    (himm : ∀ b, i.operand ≠ .immediate b) (hea : operandAddress i.operand s = some (BitVec.ofNat 16 n)) :
    ∃ t, exec i s = .next t ∧ LoadsA (byteAt s.mem n) (operandBytes i.operand.mode) s t :=
  exec_loadsA_of_datum hlda (by rw [operandDatum_of_ne_immediate himm, hea]; rfl)

/-- A running step loads what the decoded instruction loads with `pc` past the opcode byte; the fetch adds its one byte
to the advance (R125, R126). -/
theorem step_loadsA_of_exec {s : State} {op v : Byte} {i : Instr} {rest : List Byte} {n : Nat} (hr : s.rs = .running)
    (hop : byteAt s.mem s.pc.toNat = op)
    (hd : decode [op, byteAt s.mem (s.pc.toNat + 1), byteAt s.mem (s.pc.toNat + 2)] = .ok (i, rest))
    (hx : ∃ t, exec i (advancePc 1 s) = .next t ∧ LoadsA v n (advancePc 1 s) t) :
    ∃ t, step s = .next t ∧ LoadsA v (n + 1) s t := by
  obtain ⟨t, ht, hload⟩ := hx
  rw [← hop, ← fetchBytes_eq_byteAt] at hd
  exact ⟨t, (step_of_decode hr hd).trans ht, loadsA_of_loadsA_advancePc hload⟩

end Sys2Proof.Safety

namespace Sys2Proof.Laws

open Sys2Proof.Machine Sys2Proof.Safety

/-- Settles O23: LDA's mode yields an address, and the datum of an operand fetched at `pc` stands there, for Immediate
too. -/
theorem ldaCommonMeaning : Obligations.LdaCommonMeaning := by
  intro i s hlda hfetch
  have hmode : i.operand.mode ≠ .noneAddressing := by
    rw [Ne, ← fetchOperand_eq_noneAddressing_iff _ s, hfetch]
    exact operand_ne_none_of_lda hlda
  obtain ⟨v, hv⟩ := exists_operandDatum hmode s
  have hdatum : (effectiveAddress i.operand.mode s).map s.mem.read = some v := by
    rw [← operandDatum_fetchOperand, hfetch, hv]
  obtain ⟨ea, hea, rfl⟩ := Option.map_eq_some_iff.mp hdatum
  obtain ⟨t, ht, hload⟩ := exec_loadsA_of_datum hlda hv
  exact ⟨ea, t, hea, ht, hload, operandBytes_eq_one_or_two hmode⟩

/-! The eight modes: the operand's address as a number gives the load, and the step is the load of the operand bytes
it fetched. -/

/-- Settles O24: an Immediate operand is its own datum. -/
theorem ldaImmediateLoads : Obligations.LdaImmediateLoads := by
  have hexec : ∀ (b : Byte) (s : State), ∃ t, exec (.ldaImmediate b) s = .next t ∧ LoadsA b 1 s t :=
    fun _ _ => exec_loadsA_of_datum rfl rfl
  exact ⟨fun _ => rfl, hexec, fun s hr hop => step_loadsA_of_exec hr hop rfl (hexec _ (advancePc 1 s))⟩

/-- Settles O25: the operand byte, zero-extended, is the address. -/
theorem ldaZeroPageLoads : Obligations.LdaZeroPageLoads := by
  have hexec : ∀ (b : Byte) (s : State), ∃ t, exec (.ldaZeroPage b) s = .next t ∧
      LoadsA (byteAt s.mem b.toNat) 1 s t :=
    fun b _ => exec_loadsA_of_address rfl nofun (congrArg some (zext16_eq_ofNat b))
  exact ⟨fun _ => rfl, hexec, fun s hr hop => step_loadsA_of_exec hr hop rfl (hexec _ (advancePc 1 s))⟩

/-- Settles O26: the 8-bit index sum wraps before it is zero-extended. -/
theorem ldaZeroPageXLoads : Obligations.LdaZeroPageXLoads := by
  have hexec : ∀ (b : Byte) (s : State), ∃ t, exec (.ldaZeroPageX b) s = .next t ∧
      LoadsA (byteAt s.mem ((b.toNat + s.x.toNat) % 256)) 1 s t :=
    fun b s => exec_loadsA_of_address rfl nofun (congrArg some (zext16_add b s.x))
  exact ⟨fun _ => rfl, hexec, fun s hr hop => step_loadsA_of_exec hr hop rfl (hexec _ (advancePc 1 s))⟩

/-- Settles O27: the operand word is the address. -/
theorem ldaAbsoluteLoads : Obligations.LdaAbsoluteLoads := by
  have hexec : ∀ (w : Addr) (s : State), ∃ t, exec (.ldaAbsolute w) s = .next t ∧
      LoadsA (byteAt s.mem w.toNat) 2 s t :=
    fun w _ => exec_loadsA_of_address rfl nofun (congrArg some (by simp))
  refine ⟨fun lo hi => by simp [encode], hexec, fun s hr hop => ?_⟩
  rw [← joinBytes_byteAt_toNat]
  exact step_loadsA_of_exec hr hop rfl (hexec _ (advancePc 1 s))

/-- Settles O28: X is added to the operand word modulo 65536. -/
theorem ldaAbsoluteXLoads : Obligations.LdaAbsoluteXLoads := by
  have hexec : ∀ (w : Addr) (s : State), ∃ t, exec (.ldaAbsoluteX w) s = .next t ∧
      LoadsA (byteAt s.mem ((w.toNat + s.x.toNat) % 65536)) 2 s t :=
    fun w s => exec_loadsA_of_address rfl nofun (congrArg some (add_zext16 w s.x))
  refine ⟨fun lo hi => by simp [encode], hexec, fun s hr hop => ?_⟩
  rw [← joinBytes_byteAt_toNat]
  exact step_loadsA_of_exec hr hop rfl (hexec _ (advancePc 1 s))

/-- Settles O29: Y is added to the operand word modulo 65536. -/
theorem ldaAbsoluteYLoads : Obligations.LdaAbsoluteYLoads := by
  have hexec : ∀ (w : Addr) (s : State), ∃ t, exec (.ldaAbsoluteY w) s = .next t ∧
      LoadsA (byteAt s.mem ((w.toNat + s.y.toNat) % 65536)) 2 s t :=
    fun w s => exec_loadsA_of_address rfl nofun (congrArg some (add_zext16 w s.y))
  refine ⟨fun lo hi => by simp [encode], hexec, fun s hr hop => ?_⟩
  rw [← joinBytes_byteAt_toNat]
  exact step_loadsA_of_exec hr hop rfl (hexec _ (advancePc 1 s))

/-- Settles O30: X moves the pointer inside the zero page. -/
theorem ldaIndirectXLoads : Obligations.LdaIndirectXLoads := by
  have hexec : ∀ (b : Byte) (s : State), ∃ t, exec (.ldaIndirectX b) s = .next t ∧
      LoadsA (byteAt s.mem (wordAt s.mem ((b.toNat + s.x.toNat) % 256) ((b.toNat + s.x.toNat + 1) % 256))) 1 s t :=
    fun b s => exec_loadsA_of_address rfl nofun (congrArg some (readZeroPagePointer_add_eq_ofNat s.mem b s.x))
  exact ⟨fun _ => rfl, hexec, fun s hr hop => step_loadsA_of_exec hr hop rfl (hexec _ (advancePc 1 s))⟩

/-- Settles O31: Y is added to the pointer that the zero page holds. -/
theorem ldaIndirectYLoads : Obligations.LdaIndirectYLoads := by
  have hexec : ∀ (b : Byte) (s : State), ∃ t, exec (.ldaIndirectY b) s = .next t ∧
      LoadsA (byteAt s.mem ((wordAt s.mem b.toNat ((b.toNat + 1) % 256) + s.y.toNat) % 65536)) 1 s t :=
    fun b s => exec_loadsA_of_address rfl nofun (congrArg some (readZeroPagePointer_add_zext16 s.mem b s.y))
  exact ⟨fun _ => rfl, hexec, fun s hr hop => step_loadsA_of_exec hr hop rfl (hexec _ (advancePc 1 s))⟩

end Sys2Proof.Laws

/-! ## TAX and INX (spec/45_register_tax_inx.md R160, R161) -/

namespace Sys2Proof.Machine

theorem exec_tax (s : State) : exec .tax s = .next (writeX s.a s) := rfl

theorem exec_inx (s : State) : exec .inx s = .next (writeX (s.x + 1) s) := rfl

/-- `+8 1` as a number: the increment wraps at 256 (R161). -/
theorem add_one_eq_ofNat (b : Byte) : b + 1 = BitVec.ofNat 8 ((b.toNat + 1) % 256) := by
  apply BitVec.eq_of_toNat_eq
  simp

/-- The byte at `pc` alone selects an instruction that has no operand bytes (R82, R125). -/
theorem step_of_encode_singleton {i : Instr} {s : State} {op : Byte} (hr : s.rs = .running) (henc : encode i = [op])
    (hop : s.mem.read s.pc = op) : step s = exec i (advancePc 1 s) := by
  have hf : fetchBytes s.mem s.pc = encode i ++ [s.mem.read (s.pc + 1), s.mem.read (s.pc + 2)] := by
    rw [henc, ← hop]
    rfl
  exact step_of_encode_append hr hf

end Sys2Proof.Machine

namespace Sys2Proof.Safety

open Sys2Proof.Machine

/-! What a write to X leaves (R160, R161). -/

/-- Writing X after an advance of `pc` changes X, Z, N and `pc` only. -/
theorem loadsX_writeX_advancePc (v : Byte) (n : Nat) (s : State) : LoadsX v n s (writeX v (advancePc n s)) :=
  ⟨rfl, flagsFrom_updateFlags v s.p, advancePc_pc_toNat n s, rfl, rfl, rfl, sameMemory_of_mem_eq rfl⟩

theorem loadsX_writeX (v : Byte) (s : State) : LoadsX v 0 s (writeX v s) := by
  have hframe := loadsX_writeX_advancePc v 0 s
  rwa [advancePc_zero] at hframe

end Sys2Proof.Safety

namespace Sys2Proof.Laws

open Sys2Proof.Machine Sys2Proof.Safety

/-- Settles O32: TAX's arm writes A's value to X with no advance of its own, so a step that fetches its byte writes it
after the fetch's advance by one, which leaves A as it was. -/
theorem taxCopiesAToX : Obligations.TaxCopiesAToX := by
  refine ⟨rfl, fun s => ⟨_, exec_tax s, loadsX_writeX s.a s⟩, fun s hr hop => ?stepped⟩
  case stepped =>
    rw [byteAt_toNat] at hop
    have hstep : step s = .next (writeX s.a (advancePc 1 s)) :=
      (step_of_encode_singleton (i := .tax) hr rfl hop).trans (exec_tax (advancePc 1 s))
    exact ⟨_, hstep, loadsX_writeX_advancePc s.a 1 s⟩

/-- Settles O33: INX's arm writes the 8-bit sum, which is the successor modulo 256, and the step differs from it by the
fetch's advance alone. -/
theorem inxIncrementsX : Obligations.InxIncrementsX := by
  refine ⟨rfl, fun s => ?dispatched, fun s hr hop => ?stepped⟩
  case dispatched =>
    rw [← add_one_eq_ofNat]
    exact ⟨_, exec_inx s, loadsX_writeX (s.x + 1) s⟩
  case stepped =>
    rw [← add_one_eq_ofNat]
    rw [byteAt_toNat] at hop
    have hstep : step s = .next (writeX (s.x + 1) (advancePc 1 s)) :=
      (step_of_encode_singleton (i := .inx) hr rfl hop).trans (exec_inx (advancePc 1 s))
    exact ⟨_, hstep, loadsX_writeX_advancePc (s.x + 1) 1 s⟩

end Sys2Proof.Laws

/-! ## The fatal conditions (spec/60_exceptions.md R171 to R173) -/

namespace Sys2Proof.Laws

open Sys2Proof.Machine Sys2Proof.Safety

/-- Settles O19: a dispatched instruction leaves the core running or halts it, since every LDA of the table has a datum,
and a byte with no row records the other kind. -/
theorem invalidAddressingModeUnreachable : Obligations.InvalidAddressingModeUnreachable := by
  intro s t op fetchedAt hr h
  obtain ⟨i, -, hx⟩ | ⟨-, rfl⟩ := step_running_cases hr h
  · rw [exec_rs hx, advancePc_rs, hr]
    split <;> exact nofun
  · exact nofun

/-- Settles O35: the fatal condition writes the run state alone, so the fetch's advance is all that happened to the
registers. -/
theorem unimplementedOpcodeFaults : Obligations.UnimplementedOpcodeFaults := by
  intro s hr hop
  rw [byteAt_toNat] at hop ⊢
  exact ⟨_, step_of_not_mem_implementedOpcodes hr hop, raiseFatal_rs .., nofun, advancePc_one_pc_toNat s,
    ⟨rfl, rfl, rfl, rfl⟩, sameMemory_of_mem_eq rfl⟩

end Sys2Proof.Laws

/-! ## The ends of a run (spec/43_system_brk.md R141; spec/70_reset_and_hazards.md R215) -/

namespace Sys2Proof.Machine

open Sys2Proof.Safety

/-- The run state a running step leaves depends on the byte at `pc` alone; a fault record adds the address (R131,
R215). -/
theorem step_rs {s t : State} (hr : s.rs = .running) (h : step s = .next t) :
    t.rs = if s.mem.read s.pc = 0x00 then .halted
      else if s.mem.read s.pc ∈ implementedOpcodes then .running
      else .faulted .unimplementedOpcode (s.mem.read s.pc) s.pc := by
  by_cases hbrk : s.mem.read s.pc = 0x00
  · obtain rfl := Host.Outcome.next.inj ((step_of_brk_byte hr hbrk).symm.trans h)
    rw [if_pos hbrk, halt_rs]
  · rw [if_neg hbrk]
    by_cases himpl : s.mem.read s.pc ∈ implementedOpcodes
    · rw [if_pos himpl, step_stays_running hr h himpl hbrk]
    · obtain rfl := Host.Outcome.next.inj ((step_of_not_mem_implementedOpcodes hr himpl).symm.trans h)
      rw [if_neg himpl, raiseFatal_rs]

/-- A running step that halts has executed a BRK byte. -/
theorem read_pc_of_step_halted {s t : State} (hr : s.rs = .running) (h : step s = .next t) (ht : t.rs = .halted) :
    s.mem.read s.pc = 0x00 := by
  by_contra hne
  rw [step_rs hr h, if_neg hne] at ht
  split at ht <;> cases ht

/-- A run that starts running and ends has a last step, made from a running state. -/
theorem exists_last_step {fuel : Nat} {s t : State} (hr : s.rs = .running) (h : runFor fuel s = .next t)
    (ht : t.rs ≠ .running) : ∃ k u, runFor k s = .next u ∧ u.rs = .running ∧ step u = .next t := by
  induction fuel generalizing s with
  | zero => cases h; exact absurd hr ht
  | succ fuel ih =>
    obtain ⟨v, hv⟩ := step_answers_next s
    rw [runFor_succ_of_step hv] at h
    by_cases hvr : v.rs = .running
    · obtain ⟨k, u, hk, hu, hlast⟩ := ih hvr h
      exact ⟨k + 1, u, (runFor_succ_of_step hv k).trans hk, hu, hlast⟩
    · obtain rfl := Host.Outcome.next.inj ((runFor_of_not_running hvr fuel).symm.trans h)
      exact ⟨0, s, rfl, hr, hv⟩

end Sys2Proof.Machine

namespace Sys2Proof.Laws

open Sys2Proof.Machine Sys2Proof.Safety

/-- Settles O36: the three cases of the run state that a step leaves exclude each other, and BRK's byte is in the
table. -/
theorem stepEndsRunExactlyWhen : Obligations.StepEndsRunExactlyWhen := by
  intro s t hr h
  rw [byteAt_toNat, step_rs hr h]
  by_cases hbrk : s.mem.read s.pc = 0x00
  · have himpl : s.mem.read s.pc ∈ implementedOpcodes := by rw [hbrk]; decide
    rw [if_pos hbrk]
    exact ⟨iff_of_true rfl hbrk, iff_of_false nofun (not_not_intro himpl), iff_of_false nofun fun hgo => hgo.2 hbrk⟩
  · rw [if_neg hbrk]
    by_cases himpl : s.mem.read s.pc ∈ implementedOpcodes
    · rw [if_pos himpl]
      exact ⟨iff_of_false nofun hbrk, iff_of_false nofun (not_not_intro himpl), iff_of_true rfl ⟨himpl, hbrk⟩⟩
    · rw [if_neg himpl]
      exact ⟨iff_of_false nofun hbrk, iff_of_true ⟨_, _, _, rfl⟩ himpl, iff_of_false nofun fun hgo => himpl hgo.1⟩

/-- Settles O37: the run's last step is the one that halts, so it fetched BRK's byte. -/
theorem runCompletesOnlyThroughBrk : Obligations.RunCompletesOnlyThroughBrk := by
  rintro s t hr ⟨⟨fuel, hrun, hended⟩, hhalted⟩
  obtain ⟨k, u, hk, hu, hlast⟩ := exists_last_step hr hrun hended
  have hbrk : u.mem.read u.pc = 0x00 := read_pc_of_step_halted hu hlast hhalted
  have hmem : u.mem = s.mem := runFor_mem hk
  refine ⟨k, u, hk, hu, ?byte, hmem, ?final⟩
  case byte => rw [byteAt_toNat, ← hmem, hbrk]
  case final => exact Host.Outcome.next.inj (hlast.symm.trans (step_of_brk_byte hu hbrk))

end Sys2Proof.Laws

/-! ## Reset, power-on and the host's operations (spec/70_reset_and_hazards.md R200 to R207) -/

namespace Sys2Proof.Machine

/-- Reset takes nothing from a state but its memory (R200). -/
theorem performReset_congr_mem {s t : State} (h : t.mem = s.mem) : performReset t = performReset s := by
  simp only [performReset, h]

theorem loadProgram_of_too_long {bytes : List Byte} (h : Config.maxImage < bytes.length) (s : State) :
    loadProgram bytes s = .refused .imageTooLong :=
  if_neg (Nat.not_le.mpr h)

/-- A load changes memory alone (R204, R207). -/
theorem observe_of_loadProgram {bytes : List Byte} {s t : State} (h : loadProgram bytes s = .next t) :
    observe t = observe s := by
  obtain ⟨-, rfl⟩ := loadProgram_cases h
  rfl

/-- What load-and-run does, in the next state it answers (R133). -/
theorem loadAndRunFor_cases {fuel : Nat} {bytes : List Byte} {s t : State}
    (h : loadAndRunFor fuel bytes s = .next t) :
    ∃ u, loadProgram bytes s = .next u ∧ runFor fuel (performReset u) = .next t := by
  unfold loadAndRunFor at h
  split at h
  · next u hu => exact ⟨u, hu, h⟩
  · cases h
  · cases h

theorem step_powerOnWith (init : Memory) : step (powerOnWith init) = .next (powerOnWith init) :=
  step_of_not_running nofun

end Sys2Proof.Machine

namespace Sys2Proof.Safety

open Sys2Proof.Machine

/-! Reading what a load placed (R204). -/

/-- Writing the reset vector leaves every other byte alone. -/
theorem byteAt_writeWord_resetVector {n : Nat} (hn : n < 65536) (hlow : n ≠ 0xFFFC) (hhigh : n ≠ 0xFFFD)
    (m : Memory) (v : Addr) : byteAt (m.writeWord Config.resetVector v) n = byteAt m n := by
  have ofNat_ne : ∀ c : Addr, n ≠ c.toNat → BitVec.ofNat 16 n ≠ c := by
    rintro _ hne rfl
    exact hne (Nat.mod_eq_of_lt hn).symm
  exact Memory.read_writeWord_other (ofNat_ne Config.resetVector hlow) (ofNat_ne (Config.resetVector + 1) hhigh) m v

/-- An image that fits is read back from the origin upward. -/
theorem byteAt_writeBytes_origin {bytes : List Byte} (hlen : bytes.length ≤ 0x8000) (m : Memory) {k : Nat}
    (hk : k < bytes.length) : byteAt (m.writeBytes Config.origin bytes) (0x8000 + k) = bytes[k] := by
  rw [byteAt, BitVec.ofNat_add]
  exact Memory.read_writeBytes m Config.origin (by omega) hk

/-- An image that fits does not wrap: the bytes below the origin and past its end stay. -/
theorem byteAt_writeBytes_origin_other {bytes : List Byte} (hlen : bytes.length ≤ 0x8000) (m : Memory) {n : Nat}
    (hn : n < 65536) (hout : n < 0x8000 ∨ 0x8000 + bytes.length ≤ n) :
    byteAt (m.writeBytes Config.origin bytes) n = byteAt m n := by
  refine Memory.read_writeBytes_other m fun k hk heq => ?_
  have hnum : n % 65536 = (0x8000 + k) % 65536 := by
    simpa [Config.origin] using congrArg BitVec.toNat heq
  omega

/-! The invariant through the host's operations. -/

/-- The clauses on the registers do not speak of memory, so an operation on memory alone need only keep the canonical
form. -/
theorem coreInv_with_mem {s : State} {m : Memory} (hm : s.mem.wf = true → m.wf = true) (hs : CoreInv s) :
    CoreInv { s with mem := m } := by
  obtain ⟨hmem, hregs⟩ := hs
  exact ⟨hm hmem, hregs⟩

theorem coreInv_powerOnWith {init : Memory} (hinit : init.wf = true) : CoreInv (powerOnWith init) :=
  ⟨hinit, rfl, .inl rfl, faultRecordSound_of_running_or_halted (.inr rfl)⟩

theorem coreInv_performReset {s : State} (hs : CoreInv s) : CoreInv (performReset s) := by
  obtain ⟨hmem, -⟩ := hs
  exact ⟨hmem, rfl, .inl rfl, faultRecordSound_of_running_or_halted (.inl rfl)⟩

theorem coreInv_loadProgram {bytes : List Byte} {s t : State} (hs : CoreInv s) (h : loadProgram bytes s = .next t) :
    CoreInv t := by
  obtain ⟨-, rfl⟩ := loadProgram_cases h
  exact coreInv_with_mem (fun hmem => Memory.wf_writeWord _ _ (Memory.wf_writeBytes _ _ hmem)) hs

theorem coreInv_runFor {fuel : Nat} {s t : State} (hs : CoreInv s) (h : runFor fuel s = .next t) : CoreInv t :=
  runFor_keeps (fun _ _ => coreInv_step) hs h

theorem coreInv_applyHostOp {op : HostOp} {s t : State} (hs : CoreInv s) (h : applyHostOp op s = .next t) :
    CoreInv t := by
  cases op with
  | loadProgram bytes => exact coreInv_loadProgram hs h
  | reset => cases h; exact coreInv_performReset hs
  | run fuel => exact coreInv_runFor hs h
  | step => exact coreInv_step hs h
  | loadAndRun fuel bytes =>
    obtain ⟨u, hload, hrun⟩ := loadAndRunFor_cases h
    exact coreInv_runFor (coreInv_performReset (coreInv_loadProgram hs hload)) hrun
  | write addr value => cases h; exact coreInv_with_mem (Memory.wf_write addr value) hs
  | writeWord addr value => cases h; exact coreInv_with_mem (Memory.wf_writeWord addr value) hs

theorem coreInv_of_hostReachable {s : State} (h : HostReachable s) : CoreInv s := by
  induction h with
  | powerOn init hinit => exact coreInv_powerOnWith hinit
  | apply op _ hop hs => exact coreInv_applyHostOp hs hop

end Sys2Proof.Safety

namespace Sys2Proof.Laws

open Sys2Proof.Machine Sys2Proof.Safety

/-- Settles O51, by the case split of `coreInv_applyHostOp` on the operations and induction on how the host reached the
state. -/
theorem hostReachableStatesMeetCoreInv : Obligations.HostReachableStatesMeetCoreInv :=
  ⟨fun _ _ _ => coreInv_applyHostOp, fun _ => coreInv_of_hostReachable⟩

/-- Settles O43: reset reads the vector from memory, which the host's word write sets and no run changes. -/
theorem resetClearsAndLoadsVector : Obligations.ResetClearsAndLoadsVector := by
  refine ⟨fun s => ⟨rfl, rfl, rfl, rfl, ?vector, rfl, sameMemory_of_mem_eq rfl⟩, fun s v => ?roundTrip,
    fun s t fuel h => ?again⟩
  case vector => exact readWord_toNat s.mem Config.resetVector
  case roundTrip => exact Memory.readWord_writeWord s.mem Config.resetVector v
  case again =>
    have hmem : t.mem = s.mem := (runFor_mem h).trans (performReset_mem s)
    exact performReset_congr_mem hmem

/-- Settles O45: the image does not wrap, and the vector is written over it. -/
theorem loadProgramPlacesImage : Obligations.LoadProgramPlacesImage := by
  refine ⟨fun bytes s hlen => ?_, fun _ s hlong => loadProgram_of_too_long hlong s⟩
  have hload := loadProgram_of_fits hlen s
  refine ⟨_, hload, observe_of_loadProgram hload, ?low, ?high, fun k hk hlow hhigh => ?image,
    fun n hn hout hlow hhigh => ?other⟩
  case low => exact Memory.read_writeWord_low _ Config.resetVector Config.origin
  case high => exact Memory.read_writeWord_high _ Config.resetVector Config.origin
  case image => rw [byteAt_writeWord_resetVector (by omega) hlow hhigh, byteAt_writeBytes_origin hlen s.mem hk]
  case other =>
    rw [byteAt_writeWord_resetVector hn hlow hhigh, byteAt_writeBytes_origin_other hlen s.mem hn hout]

/-- Settles O44: power-on is halted whatever memory holds, and after the first reset the zero at `pc` is BRK's byte. -/
theorem powerOnThenReset : Obligations.PowerOnThenReset :=
  ⟨rfl, rfl, rfl, rfl, rfl, rfl, fun _ => rfl, step_powerOnWith [],
    fun m => ⟨rfl, rfl, step_powerOnWith m⟩, reset_eq_performReset_powerOn.symm, step_of_brk_byte rfl rfl⟩

/-- Settles O47: each of the three operations writes memory alone. -/
theorem hostWritesNoRegister : Obligations.HostWritesNoRegister := by
  refine fun s t => ⟨fun _ h => observe_of_loadProgram h, fun addr v h => ?write, fun addr v h => ?writeWord⟩
  case write => cases h; rfl
  case writeWord => cases h; rfl

end Sys2Proof.Laws

/-! ## The decoder against the encoder and the table (spec/30_encoding.md R80 to R88) -/

namespace Sys2Proof

open Sys2Proof.Safety

/-! The two formats with operand bytes (R81): what each consumes is what the encoder writes. -/

theorem eq_encode_append_of_decodeOp8 {op : Byte} {make : Byte → Instr} {bytes rest : List Byte} {i : Instr}
    (henc : ∀ b, encode (make b) = [op, b]) (h : decodeOp8 op make bytes = .ok (i, rest)) :
    op :: bytes = encode i ++ rest := by
  cases bytes with
  | nil => cases h
  | cons b bytes =>
    cases h
    rw [henc]
    rfl

theorem eq_encode_append_of_decodeOp16 {op : Byte} {make : Addr → Instr} {bytes rest : List Byte} {i : Instr}
    (henc : ∀ w, encode (make w) = [op, Machine.lowByte w, Machine.highByte w])
    (h : decodeOp16 op make bytes = .ok (i, rest)) : op :: bytes = encode i ++ rest := by
  match bytes, h with
  | [], h => cases h
  | [_], h => cases h
  | lo :: hi :: bytes, h =>
    cases h
    rw [henc, Machine.lowByte_joinBytes, Machine.highByte_joinBytes]
    rfl

theorem mem_implementedOpcodes_of_decode {op : Byte} {bytes rest : List Byte} {i : Instr}
    (h : decode (op :: bytes) = .ok (i, rest)) : op ∈ implementedOpcodes := by
  by_contra hop
  rw [decode_of_not_mem_implementedOpcodes hop] at h
  cases h

/-- The eleven opcode bytes by their format: IMP, OP8 or OP16 (R81, R84). -/
theorem format_of_mem_implementedOpcodes : ∀ op ∈ implementedOpcodes,
    op ∈ [(0x00 : Byte), 0xAA, 0xE8] ∨ op ∈ [(0xA1 : Byte), 0xA5, 0xA9, 0xB1, 0xB5] ∨
      op ∈ [(0xAD : Byte), 0xB9, 0xBD] := by
  decide

/-- The bytes an instruction is read from are its encoding and then the bytes left over: the opcode byte names the
format, and the format gives the operand back. -/
theorem eq_encode_append_of_decode {bytes rest : List Byte} {i : Instr} (h : decode bytes = .ok (i, rest)) :
    bytes = encode i ++ rest := by
  cases bytes with
  | nil => cases h
  | cons op bytes =>
    obtain himp | hop8 | hop16 := format_of_mem_implementedOpcodes op (mem_implementedOpcodes_of_decode h)
    · fin_cases himp <;> cases h <;> rfl
    · fin_cases hop8 <;> exact eq_encode_append_of_decodeOp8 (fun _ => rfl) h
    · fin_cases hop16 <;> exact eq_encode_append_of_decodeOp16 (fun _ => rfl) h

/-- With the two bytes that follow it, a byte that has a row reads as an instruction of that row, whose length is taken
off the bytes (R82, R84, R88). -/
theorem exists_decode_of_descriptorOf {op : Byte} {d : Descriptor} (h : descriptorOf op = some d) (b c : Byte)
    (rest : List Byte) :
    ∃ i rest', decode (op :: b :: c :: rest) = .ok (i, rest') ∧ i.descriptor = d ∧
      rest' = (op :: b :: c :: rest).drop d.length := by
  have hrow := mem_opcodeTable_of_descriptorOf h
  generalize hr : (op, d) = r at hrow
  fin_cases hrow <;> cases hr <;> exact ⟨_, _, rfl, rfl, rfl⟩

theorem isSome_descriptorOf_iff {op : Byte} : (descriptorOf op).isSome = true ↔ op ∈ implementedOpcodes := by
  rw [Option.isSome_iff_ne_none, Ne, descriptorOf_eq_none_iff, not_not]

/-- Every row is well formed (R82, R84, R85, R172). -/
theorem wf_of_descriptorOf {op : Byte} {d : Descriptor} (h : descriptorOf op = some d) : d.wf = true := by
  have hrows : ∀ r ∈ opcodeTable, r.2.wf = true := by decide
  exact hrows (op, d) (mem_opcodeTable_of_descriptorOf h)

end Sys2Proof

namespace Sys2Proof.Laws

open Sys2Proof.Machine Sys2Proof.Safety

/-- Settles O11: reading gives back the encoding, by the format of each opcode byte, and the encoding reads back. -/
theorem decodeEncodeAgree : Obligations.DecodeEncodeAgree := by
  refine fun bytes rest i => ⟨eq_encode_append_of_decode, ?encoded⟩
  rintro rfl
  exact decode_encode_append i rest

/-- Settles O10: facts about every row of the table, carried to whatever byte selects the row. -/
theorem decoderAgreesWithTable : Obligations.DecoderAgreesWithTable :=
  ⟨by decide, fun _ => isSome_descriptorOf_iff, fun _ _ => wf_of_descriptorOf,
    fun _ b c rest _ h => exists_decode_of_descriptorOf h b c rest⟩

/-- Settles O8: each word is the encoding of its instruction, computed, so the decoder reads it back. -/
theorem sampleWordsDecode : Obligations.SampleWordsDecode :=
  ⟨decode_encode_append .brk [], decode_encode_append (.ldaIndirectX 0x20) [],
    decode_encode_append (.ldaZeroPage 0x10) [], decode_encode_append (.ldaImmediate 0x05) [],
    decode_encode_append .tax [], decode_encode_append (.ldaAbsolute 0x1234) [],
    decode_encode_append (.ldaIndirectY 0x20) [], decode_encode_append (.ldaZeroPageX 0x10) [],
    decode_encode_append (.ldaAbsoluteY 0x1234) [], decode_encode_append (.ldaAbsoluteX 0x1234) [],
    decode_encode_append .inx []⟩

/-- Settles O49: canonical memory is empty at power-on, and the reset state is one reset later. -/
theorem coreInvAtPowerOnAndReset : Obligations.CoreInvAtPowerOnAndReset := by
  have hpowerOn : CoreInv powerOn := coreInv_powerOnWith rfl
  exact ⟨hpowerOn, reset_eq_performReset_powerOn ▸ coreInv_performReset hpowerOn⟩

end Sys2Proof.Laws

/-! ## The canonical form of memory (spec/10_state.md R34; spec/20_memory.md R50, R52) -/

namespace Sys2Proof.Machine

/-- The head of a canonical list is an entry at an address, and it is visible: it does not hold what the address reads
as without it. -/
theorem Memory.wfFrom_cons_cases {lo k : Nat} {v : Byte} {m : Memory} (h : Memory.wfFrom lo ((k, v) :: m) = true) :
    ∃ a : Addr, k = a.toNat ∧ lo ≤ a.toNat ∧ v ≠ Config.memInit a ∧ Memory.wfFrom (a.toNat + 1) m = true := by
  simp only [Memory.wfFrom, Bool.and_eq_true, decide_eq_true_eq, bne_iff_ne] at h
  obtain ⟨⟨⟨hlo, hk⟩, hv⟩, hm⟩ := h
  have hka : k = (BitVec.ofNat 16 k).toNat := (Nat.mod_eq_of_lt hk).symm
  exact ⟨BitVec.ofNat 16 k, hka, hka ▸ hlo, hv, hka ▸ hm⟩

theorem Memory.read_cons (a c : Addr) (v : Byte) (m : Memory) :
    Memory.read ((a.toNat, v) :: m) c = if c = a then v else m.read c := by
  by_cases h : c = a
  · simp [Memory.read, Memory.find, h]
  · have hn : a.toNat ≠ c.toNat := fun e => h (BitVec.eq_of_toNat_eq e.symm)
    simp [Memory.read, Memory.find, h, hn]

theorem Memory.read_nil (c : Addr) : Memory.read [] c = Config.memInit c := rfl

/-- Below where it may begin, a canonical list has no entry to be read. -/
theorem Memory.read_of_lt_wfFrom {lo : Nat} {m : Memory} (hm : Memory.wfFrom lo m = true) {c : Addr}
    (hc : c.toNat < lo) : m.read c = Config.memInit c := by
  induction m generalizing lo with
  | nil => rfl
  | cons e m ih =>
    obtain ⟨k, v⟩ := e
    obtain ⟨a, rfl, hlo, -, hm⟩ := Memory.wfFrom_cons_cases hm
    have hca : c ≠ a := by rintro rfl; omega
    rw [Memory.read_cons, if_neg hca, ih hm (by omega)]

/-- The head's address is the lowest one that reads otherwise than unwritten. -/
theorem Memory.head_le_of_read_ne {a c : Addr} {v : Byte} {m : Memory} (hm : Memory.wfFrom (a.toNat + 1) m = true)
    (hc : Memory.read ((a.toNat, v) :: m) c ≠ Config.memInit c) : a ≤ c := by
  by_contra hlt
  have hca : c.toNat < a.toNat := BitVec.lt_def.mp (BitVec.not_le.mp hlt)
  have hne : c ≠ a := by rintro rfl; omega
  rw [Memory.read_cons, if_neg hne] at hc
  exact hc (Memory.read_of_lt_wfFrom hm (by omega))

theorem Memory.eq_nil_of_read_eq_memInit {lo : Nat} {m : Memory} (hm : Memory.wfFrom lo m = true)
    (h : ∀ c : Addr, m.read c = Config.memInit c) : m = [] := by
  cases m with
  | nil => rfl
  | cons e m =>
    obtain ⟨k, v⟩ := e
    obtain ⟨a, rfl, -, hv, -⟩ := Memory.wfFrom_cons_cases hm
    have hread := h a
    rw [Memory.read_cons, if_pos rfl] at hread
    exact absurd hread hv

/-- The reads of a canonical list determine it entry by entry: its head is the lowest address that does not read as
unwritten, and what is read above the head is the tail. -/
theorem Memory.eq_of_read_eq {lo : Nat} {m m' : Memory} (hm : Memory.wfFrom lo m = true)
    (hm' : Memory.wfFrom lo m' = true) (h : ∀ c : Addr, m.read c = m'.read c) : m = m' := by
  induction m generalizing lo m' with
  | nil => exact (Memory.eq_nil_of_read_eq_memInit hm' fun c => (h c).symm).symm
  | cons e m ih =>
    cases m' with
    | nil => exact Memory.eq_nil_of_read_eq_memInit hm h
    | cons e' m' =>
      obtain ⟨k, v⟩ := e
      obtain ⟨k', v'⟩ := e'
      obtain ⟨a, rfl, -, hv, hm⟩ := Memory.wfFrom_cons_cases hm
      obtain ⟨a', rfl, -, hv', hm'⟩ := Memory.wfFrom_cons_cases hm'
      have haa' : a ≤ a' := Memory.head_le_of_read_ne hm (by rwa [h, Memory.read_cons, if_pos rfl])
      have ha'a : a' ≤ a := Memory.head_le_of_read_ne hm' (by rwa [← h, Memory.read_cons, if_pos rfl])
      obtain rfl : a = a' := BitVec.le_antisymm haa' ha'a
      have hvv' : v = v' := by simpa [Memory.read_cons] using h a
      have htail : ∀ c : Addr, Memory.read m c = Memory.read m' c := by
        intro c
        by_cases hc : c = a
        · subst hc
          rw [Memory.read_of_lt_wfFrom hm (Nat.lt_succ_self _), Memory.read_of_lt_wfFrom hm' (Nat.lt_succ_self _)]
        · simpa [Memory.read_cons, hc] using h c
      rw [hvv', ih hm hm' htail]

end Sys2Proof.Machine

namespace Sys2Proof.Laws

open Sys2Proof.Machine

/-- Settles O42, by induction on the entries in address order. -/
theorem canonicalMemoriesAreExtensional : Obligations.CanonicalMemoriesAreExtensional :=
  fun _ _ hm hm' h => Memory.eq_of_read_eq hm hm' h

end Sys2Proof.Laws
